-- ==== Sys2Proof/Word.lean ====
section
/-! DEFINITION. The word types of the machine (spec 10_state.md, 20_memory.md R30, 30_encoding.md R50 to R53). -/

namespace Sys2Proof

/-- The byte of memory and of a general register, 8 bits (R10, R30). -/
abbrev Byte := BitVec 8

/-- The instruction word, and the width of `I`, `pc` and a return address: 16 bits (R12, R13, R15, R50). -/
abbrev Word := BitVec 16

/-- A register number, the 4-bit fields `x` and `y` (R52). -/
abbrev RegIndex := BitVec 4

/-- The 4-bit immediate `n`, the sprite height (R53). -/
abbrev Nibble := BitVec 4

/-- The 12-bit address `nnn` (R53). -/
abbrev Addr12 := BitVec 12

/-- One bit per key; the code of key `k` is `k` (R18, R19, R135). -/
abbrev KeyVector := BitVec 16

end Sys2Proof
end

