-- ==== Sys2Proof/Syntax.lean ====
section
/-! DEFINITION. The 34 instructions (spec 30_encoding.md R54), one constructor per row of opcode_table.json, in
the table's order. Every operand has exactly the width the encoding gives it (R52, R53). -/

namespace Sys2Proof

/-- An instruction. `x` and `y` are register numbers, destination first (R62). -/
inductive Instr where
  /-- `00E0` CLS (R80). -/
  | cls
  /-- `00EE` RET (R81). -/
  | ret
  /-- `1nnn` JP nnn (R82). -/
  | jp (nnn : Addr12)
  /-- `2nnn` CALL nnn (R83). -/
  | call (nnn : Addr12)
  /-- `3xkk` SE Vx, kk (R90). -/
  | seImm (x : RegIndex) (kk : Byte)
  /-- `4xkk` SNE Vx, kk (R91). -/
  | sneImm (x : RegIndex) (kk : Byte)
  /-- `5xy0` SE Vx, Vy (R92). -/
  | seReg (x y : RegIndex)
  /-- `6xkk` LD Vx, kk (R95). -/
  | ldImm (x : RegIndex) (kk : Byte)
  /-- `7xkk` ADD Vx, kk (R105). -/
  | addImm (x : RegIndex) (kk : Byte)
  /-- `8xy0` LD Vx, Vy (R96). -/
  | ldReg (x y : RegIndex)
  /-- `8xy1` OR Vx, Vy (R106). -/
  | orReg (x y : RegIndex)
  /-- `8xy2` AND Vx, Vy (R107). -/
  | andReg (x y : RegIndex)
  /-- `8xy3` XOR Vx, Vy (R108). -/
  | xorReg (x y : RegIndex)
  /-- `8xy4` ADD Vx, Vy (R109). -/
  | addReg (x y : RegIndex)
  /-- `8xy5` SUB Vx, Vy (R110). -/
  | subReg (x y : RegIndex)
  /-- `8xy6` SHR Vx (R111). `y` has no effect (R60). It is kept so that every word round-trips (R62, R64). -/
  | shr (x y : RegIndex)
  /-- `8xy7` SUBN Vx, Vy (R112). -/
  | subnReg (x y : RegIndex)
  /-- `8xyE` SHL Vx (R113). `y` has no effect (R60). It is kept so that every word round-trips (R62, R64). -/
  | shl (x y : RegIndex)
  /-- `9xy0` SNE Vx, Vy (R93). -/
  | sneReg (x y : RegIndex)
  /-- `Annn` LD I, nnn (R97). -/
  | ldI (nnn : Addr12)
  /-- `Bnnn` JP V0, nnn (R84). -/
  | jpV0 (nnn : Addr12)
  /-- `Cxkk` RND Vx, kk (R120). -/
  | rnd (x : RegIndex) (kk : Byte)
  /-- `Dxyn` DRW Vx, Vy, n (R125). -/
  | drw (x y : RegIndex) (n : Nibble)
  /-- `Ex9E` SKP Vx (R137). -/
  | skp (x : RegIndex)
  /-- `ExA1` SKNP Vx (R138). -/
  | sknp (x : RegIndex)
  /-- `Fx07` LD Vx, DT (R98). -/
  | ldVxDT (x : RegIndex)
  /-- `Fx0A` LD Vx, K (R139). -/
  | ldVxK (x : RegIndex)
  /-- `Fx15` LD DT, Vx (R99). -/
  | ldDTVx (x : RegIndex)
  /-- `Fx18` LD ST, Vx (R100). -/
  | ldSTVx (x : RegIndex)
  /-- `Fx1E` ADD I, Vx (R114). -/
  | addI (x : RegIndex)
  /-- `Fx29` LD F, Vx (R101). -/
  | ldF (x : RegIndex)
  /-- `Fx33` LD B, Vx (R145). -/
  | ldB (x : RegIndex)
  /-- `Fx55` LD [I], Vx (R146). -/
  | storeRegs (x : RegIndex)
  /-- `Fx65` LD Vx, [I] (R147). -/
  | loadRegs (x : RegIndex)
  deriving DecidableEq, Repr

end Sys2Proof
end

