-- ==== Sys2Proof/Decode.lean ====
section
/-! DEFINITION. The decoder (spec 30_encoding.md R51 to R59), total on any word and on any bytes, and the encoder.
Decoding is a pure function of the word (R61). -/

namespace Sys2Proof

/-- Why a word (or a run of bytes) is no instruction, by the part of the opcode map that has no entry for it.
The names are the model's (log 12); R59 makes all of them the one outcome `Illegal`. -/
inductive Rejection where
  /-- Class 0 and neither 00E0 nor 00EE (R55). -/
  | classZero
  /-- Class 5, 8 or 9 with an unassigned 4-bit function (R56). -/
  | functionNibble
  /-- Class E or F with an unassigned 8-bit function (R57). -/
  | functionByte
  /-- Fewer than the two bytes of an instruction (R50). -/
  | truncated
  deriving DecidableEq, Repr

/-- What decoding answers: an instruction, or `Illegal` with the reason (R54). -/
inductive Decoded where
  | instr (i : Instr)
  | illegal (why : Rejection)
  deriving DecidableEq, Repr

/-! ### Fields of a word (R52) -/

/-- `class = w[15:12]`. -/
def opClass (w : Word) : BitVec 4 := w.extractLsb' 12 4

/-- `x = w[11:8]`. -/
def fieldX (w : Word) : RegIndex := w.extractLsb' 8 4

/-- `y = w[7:4]`. -/
def fieldY (w : Word) : RegIndex := w.extractLsb' 4 4

/-- `n = w[3:0]`, also the function `fn`. -/
def fieldN (w : Word) : Nibble := w.extractLsb' 0 4

/-- `kk = w[7:0]`, also the function `fn8`. -/
def fieldKK (w : Word) : Byte := w.extractLsb' 0 8

/-- `nnn = w[11:0]`. -/
def fieldNNN (w : Word) : Addr12 := w.extractLsb' 0 12

/-! ### The decoder -/

/-- Class 0 decodes by the whole word (R55). -/
def decodeClass0 (w : Word) : Decoded :=
  if w = 0x00E0 then .instr .cls
  else if w = 0x00EE then .instr .ret
  else .illegal .classZero

/-- Class 8 decodes by `fn` (R56). -/
def decodeClass8 (w : Word) : Decoded :=
  match (fieldN w).toNat with
  | 0x0 => .instr (.ldReg (fieldX w) (fieldY w))
  | 0x1 => .instr (.orReg (fieldX w) (fieldY w))
  | 0x2 => .instr (.andReg (fieldX w) (fieldY w))
  | 0x3 => .instr (.xorReg (fieldX w) (fieldY w))
  | 0x4 => .instr (.addReg (fieldX w) (fieldY w))
  | 0x5 => .instr (.subReg (fieldX w) (fieldY w))
  | 0x6 => .instr (.shr (fieldX w) (fieldY w))
  | 0x7 => .instr (.subnReg (fieldX w) (fieldY w))
  | 0xE => .instr (.shl (fieldX w) (fieldY w))
  | _ => .illegal .functionNibble

/-- Class E decodes by `fn8` (R57). -/
def decodeClassE (w : Word) : Decoded :=
  match (fieldKK w).toNat with
  | 0x9E => .instr (.skp (fieldX w))
  | 0xA1 => .instr (.sknp (fieldX w))
  | _ => .illegal .functionByte

/-- Class F decodes by `fn8` (R57). -/
def decodeClassF (w : Word) : Decoded :=
  match (fieldKK w).toNat with
  | 0x07 => .instr (.ldVxDT (fieldX w))
  | 0x0A => .instr (.ldVxK (fieldX w))
  | 0x15 => .instr (.ldDTVx (fieldX w))
  | 0x18 => .instr (.ldSTVx (fieldX w))
  | 0x1E => .instr (.addI (fieldX w))
  | 0x29 => .instr (.ldF (fieldX w))
  | 0x33 => .instr (.ldB (fieldX w))
  | 0x55 => .instr (.storeRegs (fieldX w))
  | 0x65 => .instr (.loadRegs (fieldX w))
  | _ => .illegal .functionByte

/-- The decode function: first on the class, then on the sub-field (R54 to R58). -/
def decodeWord (w : Word) : Decoded :=
  match (opClass w).toNat with
  | 0x0 => decodeClass0 w
  | 0x1 => .instr (.jp (fieldNNN w))
  | 0x2 => .instr (.call (fieldNNN w))
  | 0x3 => .instr (.seImm (fieldX w) (fieldKK w))
  | 0x4 => .instr (.sneImm (fieldX w) (fieldKK w))
  | 0x5 => if fieldN w = 0 then .instr (.seReg (fieldX w) (fieldY w)) else .illegal .functionNibble
  | 0x6 => .instr (.ldImm (fieldX w) (fieldKK w))
  | 0x7 => .instr (.addImm (fieldX w) (fieldKK w))
  | 0x8 => decodeClass8 w
  | 0x9 => if fieldN w = 0 then .instr (.sneReg (fieldX w) (fieldY w)) else .illegal .functionNibble
  | 0xA => .instr (.ldI (fieldNNN w))
  | 0xB => .instr (.jpV0 (fieldNNN w))
  | 0xC => .instr (.rnd (fieldX w) (fieldKK w))
  | 0xD => .instr (.drw (fieldX w) (fieldY w) (fieldN w))
  | 0xE => decodeClassE w
  | _ => decodeClassF w

/-- The word two bytes make, the first byte in the high bits (R32). -/
def wordOfBytes (hi lo : Byte) : Word := hi ++ lo

/-- Decode the instruction a run of bytes begins with, lowest address first (R32, R50). -/
def decodeBytes : List Byte → Decoded
  | hi :: lo :: _ => decodeWord (wordOfBytes hi lo)
  | _ => .illegal .truncated

/-! ### The encoder -/

/-- Format A: class and address (R51). -/
def formatA (c : BitVec 4) (nnn : Addr12) : Word := c ++ nnn

/-- Formats XK and X: class, register, byte (R51). -/
def formatXK (c : BitVec 4) (x : RegIndex) (kk : Byte) : Word := c ++ x ++ kk

/-- Formats XY and XYN: class, two registers, nibble (R51). -/
def formatXY (c : BitVec 4) (x y : RegIndex) (n : Nibble) : Word := c ++ x ++ y ++ n

/-- The word of an instruction (R51, R54). -/
def encode : Instr → Word
  | .cls => 0x00E0
  | .ret => 0x00EE
  | .jp nnn => formatA 0x1 nnn
  | .call nnn => formatA 0x2 nnn
  | .seImm x kk => formatXK 0x3 x kk
  | .sneImm x kk => formatXK 0x4 x kk
  | .seReg x y => formatXY 0x5 x y 0x0
  | .ldImm x kk => formatXK 0x6 x kk
  | .addImm x kk => formatXK 0x7 x kk
  | .ldReg x y => formatXY 0x8 x y 0x0
  | .orReg x y => formatXY 0x8 x y 0x1
  | .andReg x y => formatXY 0x8 x y 0x2
  | .xorReg x y => formatXY 0x8 x y 0x3
  | .addReg x y => formatXY 0x8 x y 0x4
  | .subReg x y => formatXY 0x8 x y 0x5
  | .shr x y => formatXY 0x8 x y 0x6
  | .subnReg x y => formatXY 0x8 x y 0x7
  | .shl x y => formatXY 0x8 x y 0xE
  | .sneReg x y => formatXY 0x9 x y 0x0
  | .ldI nnn => formatA 0xA nnn
  | .jpV0 nnn => formatA 0xB nnn
  | .rnd x kk => formatXK 0xC x kk
  | .drw x y n => formatXY 0xD x y n
  | .skp x => formatXK 0xE x 0x9E
  | .sknp x => formatXK 0xE x 0xA1
  | .ldVxDT x => formatXK 0xF x 0x07
  | .ldVxK x => formatXK 0xF x 0x0A
  | .ldDTVx x => formatXK 0xF x 0x15
  | .ldSTVx x => formatXK 0xF x 0x18
  | .addI x => formatXK 0xF x 0x1E
  | .ldF x => formatXK 0xF x 0x29
  | .ldB x => formatXK 0xF x 0x33
  | .storeRegs x => formatXK 0xF x 0x55
  | .loadRegs x => formatXK 0xF x 0x65

/-- The high byte of a word, the one at the lower address (R32). -/
def wordHi (w : Word) : Byte := w.extractLsb' 8 8

/-- The low byte of a word, the one at the higher address (R32). -/
def wordLo (w : Word) : Byte := w.extractLsb' 0 8

/-- The two bytes of an instruction as memory holds them (R32). -/
def encodeBytes (i : Instr) : List Byte := [wordHi (encode i), wordLo (encode i)]

/-! ### The opcode table's words, for the host -/

/-- The instruction word a table word stands for: bit 0 is its least significant bit, every bit from `nbits` up is 0. -/
def tableWord (nbits w : Nat) : Word := BitVec.ofNat 16 (w % 2 ^ nbits)

/-- The instruction the decoder reads from a table word laid out in memory, high byte first (R32). -/
def decodeTableWord (nbits w : Nat) : Option Instr :=
  match decodeBytes [wordHi (tableWord nbits w), wordLo (tableWord nbits w)] with
  | .instr i => some i
  | .illegal _ => none

end Sys2Proof
end

