-- ==== Sys2Proof/Config.lean ====
section
/-! DEFINITION. The parameters of this hardware (spec 00_scope.md R3) and its one open value, the random byte. -/

namespace Sys2Proof.Config

/-- `MEM_SIZE`: bytes of memory, addresses 0 to 4095 (R3, R30). -/
def memSize : Nat := 4096

/-- `PROG_BASE`: where the image is loaded, and the reset value of `pc` (R3, R24). -/
def progBase : Nat := 0x200

/-- `MAX_IMAGE`: the longest image `reset` accepts (R3, R192). -/
def maxImage : Nat := 3584

/-- `STACK_DEPTH`: live return addresses the call stack can hold (R3, R15). -/
def stackDepth : Nat := 16

/-- `INSN_BYTES`: the length of every instruction (R3, R50). -/
def insnBytes : Nat := 2

/-- The open random source (R121, D22 OPEN): the byte of its `k`-th draw. It has no body, so no proof can
lean on a value of it. DESIGN CHOICE (log 3), safe: every generator is admitted. -/
opaque rndByte : Nat → Byte

end Sys2Proof.Config
end

