-- ==== Sys2Proof/Machine/State.lean ====
section
/-! DEFINITION. The state of the machine (spec 10_state.md), the host's events (00_scope.md R5), the reasons a step
can stop, and the state after reset (R24). -/

namespace Sys2Proof.Machine

/-- The causes of a fault of the running machine (R150). -/
inductive FaultCause where
  | decodeFault
  | stackOverflow
  | stackUnderflow
  | memoryOutOfBounds
  | fetchOutOfBounds
  | misalignedPC
  deriving DecidableEq, Repr

/-- The fault record that Halted carries (R22). -/
structure FaultRecord where
  cause : FaultCause
  /-- `pc` when the fault was raised. -/
  addr : Word
  /-- The instruction word, absent for the two fetch faults. -/
  word : Option Word
  /-- The first out-of-range address, present only for MemoryOutOfBounds. -/
  dataAddr : Option Word
  deriving DecidableEq, Repr

/-- The reason label of Paused, on which no behaviour depends (R21). -/
inductive PauseReason where
  | request
  | breakpoint
  | stepDone
  deriving DecidableEq, Repr

/-- The reasons the `pause` event can give (R175). -/
inductive PauseRequest where
  | request
  | breakpoint
  deriving DecidableEq, Repr

/-- The mode a pause saves: Running or WaitingForKey (R21). -/
inductive PriorMode where
  | running
  | waitingForKey (x : RegIndex)
  deriving DecidableEq, Repr

/-- The execution mode (R21). -/
inductive Mode where
  | running
  | waitingForKey (x : RegIndex)
  | paused (reason : PauseReason) (prior : PriorMode)
  | halted (record : FaultRecord)
  deriving DecidableEq, Repr

/-- The events the host can issue, each one atomic transition (R4, R5). Arguments are what the host can pass:
a number out of range is for the event's own rule to ignore or reject (R136, R179, R192). -/
inductive Event where
  /-- `step` (R70). -/
  | step
  /-- `tick` (R165). -/
  | tick
  /-- `set_key(code, pressed)` (R136). -/
  | setKey (code : Nat) (pressed : Bool)
  /-- `pause(reason)` (R175). -/
  | pause (reason : PauseRequest)
  /-- `resume` (R176). -/
  | resume
  /-- `step_once` (R177). -/
  | stepOnce
  /-- `write_register(index, value)` (R179). -/
  | writeRegister (index : Nat) (value : Byte)
  /-- `write_memory(address, value)` (R179). -/
  | writeMemory (address : Nat) (value : Byte)
  /-- `reset(image)` (R190). -/
  | reset (image : List Byte)
  deriving DecidableEq, Repr

/-- Memory, as the list of the bytes that differ from what an unlisted address reads as (log 6, Machine/Memory.lean). -/
abbrev Memory := List Host.Cell

/-- The framebuffer: 32 rows, each of 64 pixels, `true` = set (R17). -/
abbrev Framebuffer := Vector (Vector Bool 64) 32

/-- The whole state of the machine (10_state.md), and below it the inputs the model holds as data. -/
structure State where
  /-- General registers V0 to VF (R10). -/
  V : Vector Byte 16
  /-- Index register (R12). -/
  I : Word
  /-- Program counter (R13). -/
  pc : Word
  /-- Delay timer (R14). -/
  DT : Byte
  /-- Sound timer (R14). -/
  ST : Byte
  /-- Call stack, newest return address first, at most 16 (R15, log 7). -/
  stack : List Word
  /-- Memory (R16). -/
  mem : Memory
  /-- Framebuffer (R17). -/
  fb : Framebuffer
  /-- Key vector, bit `k` = key `k` pressed (R18). -/
  keys : KeyVector
  /-- Press-edge latch of the key wait (R19). -/
  keyArmed : KeyVector
  /-- Execution mode (R21). -/
  mode : Mode
  /-- The model's own: random bytes the host has already supplied, next first (R121, log 3). -/
  rndInputs : List Byte
  /-- The model's own: how many bytes were drawn from the open random source (R121, log 3). -/
  rndDrawn : Nat
  /-- The model's own: the host's events still to come. When there are none the host issues `step` (R4, log 2). -/
  schedule : List Event
  deriving DecidableEq, Repr

/-- Why a step answers no next state. The six faults of a running program are NOT here: they put the machine in
Halted (R151), which is a next state. -/
inductive Fault where
  /-- Raised by the `reset(image)` event alone, when the image is longer than 3584 bytes: the machine is never
  started and no state exists (R159, R192). Safe: it is the outcome the spec gives (log 10). -/
  | loadFault
  deriving DecidableEq, Repr

/-- An instruction the model gives no meaning. -/
inductive Refusal where
  /-- Raised by `exec`'s arm of an instruction that has no meaning yet. Safe: nothing is claimed of it. No arm of
  this model raises it. -/
  | notModelled (mnemonic : String)
  deriving DecidableEq, Repr

/-- What one event answers. -/
abbrev Result := Host.Outcome State Fault Refusal

/-- The machine after `reset(image)` with the empty image (R24, R190, R191; log 4): nothing in memory but the font. -/
def State.reset : State where
  V := Vector.replicate 16 0
  I := 0
  pc := BitVec.ofNat 16 Config.progBase
  DT := 0
  ST := 0
  stack := []
  mem := []
  fb := Vector.replicate 32 (Vector.replicate 64 false)
  keys := 0
  keyArmed := 0
  mode := .running
  rndInputs := []
  rndDrawn := 0
  schedule := []

end Sys2Proof.Machine
end

