-- ==== Sys2Proof/Machine/Display.lean ====
section
/-! DEFINITION. The display block: pixels and the draw operation (spec 46_display.md R123, R124). -/

namespace Sys2Proof.Machine

/-- The pixel `fb[row][col]` (R17). -/
def Framebuffer.pixel (fb : Framebuffer) (row : Fin 32) (col : Fin 64) : Bool :=
  fb[row][col]

/-- The blank display, every pixel 0 (R80). -/
def Framebuffer.blank : Framebuffer := Vector.replicate 32 (Vector.replicate 64 false)

/-- `fb[row][col] <- fb[row][col] XOR 1` (R124). -/
def Framebuffer.flip (fb : Framebuffer) (row : Fin 32) (col : Fin 64) : Framebuffer :=
  fb.set row.val (fb[row].set col.val (!fb[row][col]) col.isLt) row.isLt

/-- What a draw has done so far: the pixels, and whether any went from set to unset (R124). -/
structure Drawing where
  fb : Framebuffer
  collided : Bool
  deriving DecidableEq, Repr

/-- The framebuffer row that sprite row `r` lands on, wrapping (R123). -/
def pixelRow (y0 r : Nat) : Fin 32 := Fin.ofNat 32 (y0 + r)

/-- The framebuffer column that sprite column `c` lands on, wrapping (R123). -/
def pixelCol (x0 c : Nat) : Fin 64 := Fin.ofNat 64 (x0 + c)

/-- Sprite column `c` of a sprite row: bit 7 is the leftmost pixel (R123). -/
def spriteBit (b : Byte) (c : Nat) : Bool := b.getLsbD (7 - c)

/-- One pixel of the draw: a sprite bit of 1 flips its pixel, and collides if the pixel was set (R124). -/
def Drawing.plot (d : Drawing) (row : Fin 32) (col : Fin 64) (bit : Bool) : Drawing :=
  if bit then ⟨d.fb.flip row col, d.collided || d.fb.pixel row col⟩ else d

/-- One sprite row, columns 0 to 7 (R124). -/
def Drawing.row (d : Drawing) (x0 : Nat) (row : Fin 32) (b : Byte) : Drawing :=
  (List.range 8).foldl (fun d c => d.plot row (pixelCol x0 c) (spriteBit b c)) d

/-- The sprite rows from row `r` on (R124). -/
def Drawing.rows (x0 y0 : Nat) : Nat → List Byte → Drawing → Drawing
  | _, [], d => d
  | r, b :: bs, d => Drawing.rows x0 y0 (r + 1) bs (d.row x0 (pixelRow y0 r) b)

/-- `draw(x0, y0, rows)`: XOR composition against the buffer, answering whether any pixel was cleared (R124). -/
def draw (fb : Framebuffer) (x0 y0 : Nat) (sprite : List Byte) : Drawing :=
  Drawing.rows x0 y0 0 sprite ⟨fb, false⟩

end Sys2Proof.Machine
end

