-- ==== Sys2Proof/Machine/Flags.lean ====
section
/-! DEFINITION. Every flag computation (spec 10_state.md R11, 44_arith.md R109 to R116), from the exact integers. -/

namespace Sys2Proof.Machine

/-- A flag as VF holds it, 0x00 or 0x01 (R11). -/
def flagByte (b : Bool) : Byte := if b then 1 else 0

/-- Carry out of an add: the true sum exceeds 255 (R109, R116). -/
def carry (a b : Byte) : Bool := a.toNat + b.toNat > 255

/-- NOT borrow of `a - b`: the true difference is not negative (R110, R112, R116). -/
def notBorrow (a b : Byte) : Bool := a.toNat ≥ b.toNat

/-- The bit a shift right by one pushes out, bit 0 (R111). -/
def shiftedOutRight (a : Byte) : Bool := a.getLsbD 0

/-- The bit a shift left by one pushes out, bit 7 (R113). -/
def shiftedOutLeft (a : Byte) : Bool := a.getLsbD 7

/-- `(a + b) mod 256` (R105, R109). -/
def addMod (a b : Byte) : Byte := BitVec.ofNat 8 (a.toNat + b.toNat)

/-- `(a - b) mod 256`, as `(a - b + 256) mod 256` (R110, R112). -/
def subMod (a b : Byte) : Byte := BitVec.ofNat 8 (a.toNat + 256 - b.toNat)

/-- `a >> 1`, that is `a div 2` (R111). -/
def shiftRight (a : Byte) : Byte := BitVec.ofNat 8 (a.toNat / 2)

/-- `(a << 1) mod 256` (R113). -/
def shiftLeft (a : Byte) : Byte := BitVec.ofNat 8 (a.toNat * 2)

end Sys2Proof.Machine
end

