-- ==== Sys2Proof/Machine/Memory.lean ====
section
/-! DEFINITION. The font and the memory: reading and writing bytes (spec 20_memory.md, 70_reset_and_hazards.md R193). -/

namespace Sys2Proof.Machine

/-- `FONT_BASE`, the address of glyph 0 (R3, R193). -/
def fontBase : Nat := 0x050

/-- The bytes of one glyph, top row first (R193). -/
def glyph : Nat → List Byte
  | 0x0 => [0xF0, 0x90, 0x90, 0x90, 0xF0]
  | 0x1 => [0x20, 0x60, 0x20, 0x20, 0x70]
  | 0x2 => [0xF0, 0x10, 0xF0, 0x80, 0xF0]
  | 0x3 => [0xF0, 0x10, 0xF0, 0x10, 0xF0]
  | 0x4 => [0x90, 0x90, 0xF0, 0x10, 0x10]
  | 0x5 => [0xF0, 0x80, 0xF0, 0x10, 0xF0]
  | 0x6 => [0xF0, 0x80, 0xF0, 0x90, 0xF0]
  | 0x7 => [0xF0, 0x10, 0x20, 0x40, 0x40]
  | 0x8 => [0xF0, 0x90, 0xF0, 0x90, 0xF0]
  | 0x9 => [0xF0, 0x90, 0xF0, 0x10, 0xF0]
  | 0xA => [0xF0, 0x90, 0xF0, 0x90, 0x90]
  | 0xB => [0xE0, 0x90, 0xE0, 0x90, 0xE0]
  | 0xC => [0xF0, 0x80, 0x80, 0x80, 0xF0]
  | 0xD => [0xE0, 0x90, 0x90, 0x90, 0xE0]
  | 0xE => [0xF0, 0x80, 0xF0, 0x80, 0xF0]
  | 0xF => [0xF0, 0x80, 0xF0, 0x80, 0x80]
  | _ => []

/-- What an address that memory does not list reads as, the reset contents with no image: glyph `d` at
`FONT_BASE + 5 d`, zero elsewhere (R24, R193, log 6). -/
def unlistedByte (a : Nat) : Byte :=
  if fontBase ≤ a then (glyph ((a - fontBase) / 5)).getD ((a - fontBase) % 5) 0 else 0

/-- `MemRead(a, 1)` (R7). The rules call it only for addresses 0 to 4095 (R33). -/
def Memory.read : Memory → Nat → Byte
  | [], a => unlistedByte a
  | (k, b) :: m, a => if k = a then b else Memory.read m a

/-- Put a byte into the list at its place in address order. -/
def Memory.insert (a : Nat) (b : Byte) : Memory → Memory
  | [] => [(a, b)]
  | (k, c) :: m => if a < k then (a, b) :: (k, c) :: m else (k, c) :: Memory.insert a b m

/-- `MemWrite(a, 1, b)` (R7). The rules call it only for addresses 0 to 4095 (R33). Elsewhere there is no byte to
write and nothing changes (log 6). The byte an unlisted address reads as is not listed, so equal memories are equal lists. -/
def Memory.write (m : Memory) (a : Nat) (b : Byte) : Memory :=
  if a < Config.memSize then
    let others := m.filter (fun c => c.1 != a)
    if b = unlistedByte a then others else Memory.insert a b others
  else m

/-- The canonical form: addresses strictly rising, all of them in memory, and no entry equal to what an unlisted
address reads as. -/
abbrev Memory.wf (m : Memory) : Prop :=
  m.Pairwise (fun c d => c.1 < d.1) ∧ ∀ c ∈ m, c.1 < Config.memSize ∧ c.2 ≠ unlistedByte c.1

/-- The bytes at `a`, `a + 1`, …, `a + n - 1`. -/
def Memory.readBytes (m : Memory) (a : Nat) : Nat → List Byte
  | 0 => []
  | n + 1 => m.read a :: Memory.readBytes m (a + 1) n

/-- Write the bytes at `a`, `a + 1`, … in order. -/
def Memory.writeBytes (m : Memory) (a : Nat) : List Byte → Memory
  | [] => m
  | b :: bs => Memory.writeBytes (m.write a b) (a + 1) bs

end Sys2Proof.Machine
end

