-- ==== Sys2Proof/Machine/Operands.lean ====
section
/-! DEFINITION. Every operand form: a register named by number, an address immediate, a low nibble, the bytes at `I`,
a key of the key vector (spec 30_encoding.md R52, R53; 48_memory.md R149; 47_keypad.md R137). -/

namespace Sys2Proof.Machine

/-- VF, register 15, the flag register (R11). -/
def VF : RegIndex := 0xF

/-- `V[x]`: read a general register. All 16 are ordinary registers (R10). -/
def State.reg (s : State) (x : RegIndex) : Byte := s.V[x.toNat]'x.isLt

/-- `V[x] <- v`: write a general register (R10). -/
def State.setReg (s : State) (x : RegIndex) (v : Byte) : State :=
  { s with V := s.V.set x.toNat v x.isLt }

/-- `zext_16(nnn)` (R53). -/
def zextAddr (nnn : Addr12) : Word := nnn.setWidth 16

/-- `zext_16` of a register's value (R84, R114). -/
def zextByte (b : Byte) : Word := b.setWidth 16

/-- `v[3:0]`: a digit or a key code is the low nibble (R101, R137). -/
def lowNibble (v : Byte) : Nat := v.toNat % 16

/-- The address of the glyph of digit `d` (R101). -/
def glyphAddr (d : Nat) : Word := BitVec.ofNat 16 (fontBase + 5 * d)

/-- Is every byte of the range `I` to `I + len - 1` in memory? An empty range always is (R33). -/
def inMemory (base : Word) (len : Nat) : Bool := len == 0 || base.toNat + len ≤ Config.memSize

/-- The lowest out-of-range address of a range that starts at `I`: `max(I, 4096)` (R33). -/
def firstOutOfRange (base : Word) : Word := BitVec.ofNat 16 (max base.toNat Config.memSize)

/-- `keys[k] == 1` (R135). -/
def keyPressed (keys : KeyVector) (k : Nat) : Bool := keys.getLsbD k

/-- `lowest_set(m)`: the least `k` with `m[k] == 1` (R7). Asked only of a non-zero vector. -/
def lowestSet (m : KeyVector) : Nat := ((List.range 16).find? (fun k => m.getLsbD k)).getD 0

/-- `V[0]` to `V[k - 1]`, in order (R146). -/
def State.firstRegs (s : State) (k : Nat) : List Byte := s.V.toList.take k

/-- `V[i] <- MemRead(base + i, 1)` for `i` from 0 to `k - 1` (R147). -/
def loadInto (m : Memory) (base : Nat) : Nat → Vector Byte 16 → Vector Byte 16
  | 0, v => v
  | k + 1, v => (loadInto m base k v).setIfInBounds k (m.read (base + k))

/-- The hundreds digit of a byte (R145). -/
def hundreds (v : Byte) : Byte := BitVec.ofNat 8 (v.toNat / 100)

/-- The tens digit of a byte (R145). -/
def tens (v : Byte) : Byte := BitVec.ofNat 8 (v.toNat / 10 % 10)

/-- The ones digit of a byte (R145). -/
def ones (v : Byte) : Byte := BitVec.ofNat 8 (v.toNat % 10)

/-- The three decimal digit bytes, most significant first (R145). -/
def bcd (v : Byte) : List Byte := [hundreds v, tens v, ones v]

end Sys2Proof.Machine
end

