-- ==== Sys2Proof/Machine/Ops.lean ====
section
/-! DEFINITION. The named operations the meanings share: advancing, fault entry, fetch, the call stack, the random
port, checked memory access, the key wait. -/

namespace Sys2Proof.Machine

/-! ### The program counter (R13, R73) -/

/-- `pc <- pc + 2` (R13). -/
def State.advance (s : State) : State := { s with pc := s.pc + 2 }

/-- "'skip' = advance PC by 4 instead of 2" (R13, R90 to R93). -/
def State.skipIf (s : State) (taken : Bool) : State :=
  { s with pc := if taken then s.pc + 4 else s.pc + 2 }

/-- `pc <- target` (R82). -/
def State.jump (s : State) (target : Word) : State := { s with pc := target }

/-! ### Fault entry (R22, R151, R152) -/

/-- `raise F(info)`: `mode <- Halted(record)` and nothing else. `addr` is `pc` as it stands (R151, R152). There is no
vector, no saved register and no return (R151, R162). -/
def State.raise (s : State) (cause : FaultCause) (word dataAddr : Option Word) : State :=
  { s with mode := .halted { cause := cause, addr := s.pc, word := word, dataAddr := dataAddr } }

/-- A fault of the instruction `i` itself: the record holds its word (R22, log 8). -/
def State.raiseIn (s : State) (i : Instr) (cause : FaultCause) : State :=
  s.raise cause (some (encode i)) none

/-- MemoryOutOfBounds of the instruction `i`, whose range starts at `I` (R33, R150). -/
def State.raiseBounds (s : State) (i : Instr) : State :=
  s.raise .memoryOutOfBounds (some (encode i)) (some (firstOutOfRange s.I))

/-! ### Fetch (R32, R71) -/

/-- What the fetch answers: a word, or one of the two fetch faults. -/
inductive Fetched where
  | word (w : Word)
  | fault (cause : FaultCause)
  deriving DecidableEq, Repr

/-- May a word be fetched at this address: even, and both bytes in memory (R71)? -/
def fetchable (a : Word) : Bool := a.toNat % 2 == 0 && a.toNat + Config.insnBytes ≤ Config.memSize

/-- The fetch: alignment is tested first, then the bounds, then two bytes are read, big-endian (R71). -/
def State.fetch (s : State) : Fetched :=
  if s.pc.toNat % 2 = 1 then .fault .misalignedPC
  else if s.pc.toNat > 4094 then .fault .fetchOutOfBounds
  else .word (wordOfBytes (s.mem.read s.pc.toNat) (s.mem.read (s.pc.toNat + 1)))

/-! ### The call stack (R15) -/

/-- `sp`, the number of live entries (R15). -/
def State.sp (s : State) : Nat := s.stack.length

/-- The live entry `stack[k]`, `stack[0]` the oldest (R15). -/
def State.stackEntry (s : State) (k : Nat) : Option Word := s.stack.reverse[k]?

/-! ### The random port (R120, R121) -/

/-- The byte the next `RND` takes: what the host has supplied, else a draw from the open source (log 3). -/
def State.rndByte (s : State) : Byte :=
  match s.rndInputs with
  | b :: _ => b
  | [] => Config.rndByte s.rndDrawn

/-- One byte is taken from the source (R120). -/
def State.takeRnd (s : State) : State :=
  match s.rndInputs with
  | _ :: rest => { s with rndInputs := rest }
  | [] => { s with rndDrawn := s.rndDrawn + 1 }

/-! ### Results and flags (R115) -/

/-- The result first, VF last, then `pc + 2`: with x = F the register ends as the flag (R115). -/
def State.writeWithFlag (s : State) (x : RegIndex) (result : Byte) (flag : Bool) : State :=
  ((s.setReg x result).setReg VF (flagByte flag)).advance

/-! ### Memory at `I` (R33, R149) -/

/-- Run `body` if the range of `len` bytes at `I` is in memory, else raise MemoryOutOfBounds with nothing done (R33). -/
def State.withRange (s : State) (i : Instr) (len : Nat) (body : State) : State :=
  if inMemory s.I len then body else s.raiseBounds i

/-- Store bytes at `I` and advance (R145, R146). -/
def State.storeAtI (s : State) (bytes : List Byte) : State :=
  { s with mem := s.mem.writeBytes s.I.toNat bytes }.advance

/-! ### The key wait (R139, R140) -/

/-- The `LD Vx, K` instruction only opens the wait (R139). -/
def State.openKeyWait (s : State) (x : RegIndex) : State :=
  { s with keyArmed := ~~~s.keys, mode := .waitingForKey x }

/-- The key-wait check of a step in WaitingForKey(x) (R140). -/
def State.keyWaitCheck (s : State) (x : RegIndex) : State :=
  let hit := s.keys &&& s.keyArmed
  if hit ≠ 0 then
    { s.setReg x (BitVec.ofNat 8 (lowestSet hit)) with
      keyArmed := 0, pc := s.pc + 2, mode := .running }
  else { s with keyArmed := s.keyArmed ||| ~~~s.keys }

end Sys2Proof.Machine
end

