-- ==== Sys2Proof/Machine/Arith.lean ====
section
/-! DEFINITION. The arithmetic and logic instructions (spec 44_arith.md). None can fault. -/

namespace Sys2Proof.Machine

/-- ADD Vx, kk: the carry is discarded (R105). -/
def execAddImm (x : RegIndex) (kk : Byte) (s : State) : Result :=
  .next (s.setReg x (addMod (s.reg x) kk)).advance

/-- OR Vx, Vy: VF unchanged unless x = F (R106). -/
def execOrReg (x y : RegIndex) (s : State) : Result := .next (s.setReg x (s.reg x ||| s.reg y)).advance

/-- AND Vx, Vy: VF unchanged unless x = F (R107). -/
def execAndReg (x y : RegIndex) (s : State) : Result := .next (s.setReg x (s.reg x &&& s.reg y)).advance

/-- XOR Vx, Vy: VF unchanged unless x = F (R108). -/
def execXorReg (x y : RegIndex) (s : State) : Result := .next (s.setReg x (s.reg x ^^^ s.reg y)).advance

/-- ADD Vx, Vy: VF = carry (R109). -/
def execAddReg (x y : RegIndex) (s : State) : Result :=
  .next (s.writeWithFlag x (addMod (s.reg x) (s.reg y)) (carry (s.reg x) (s.reg y)))

/-- SUB Vx, Vy: Vx minus Vy, VF = NOT borrow (R110). -/
def execSubReg (x y : RegIndex) (s : State) : Result :=
  .next (s.writeWithFlag x (subMod (s.reg x) (s.reg y)) (notBorrow (s.reg x) (s.reg y)))

/-- SHR Vx: in place. `y` is neither read nor written (R111, R60). -/
def execShr (x _y : RegIndex) (s : State) : Result :=
  .next (s.writeWithFlag x (shiftRight (s.reg x)) (shiftedOutRight (s.reg x)))

/-- SUBN Vx, Vy: Vy minus Vx into Vx, VF = NOT borrow (R112). -/
def execSubnReg (x y : RegIndex) (s : State) : Result :=
  .next (s.writeWithFlag x (subMod (s.reg y) (s.reg x)) (notBorrow (s.reg y) (s.reg x)))

/-- SHL Vx: in place. `y` is neither read nor written (R113, R60). -/
def execShl (x _y : RegIndex) (s : State) : Result :=
  .next (s.writeWithFlag x (shiftLeft (s.reg x)) (shiftedOutLeft (s.reg x)))

/-- ADD I, Vx: modulo 65536, VF not written (R114). -/
def execAddI (x : RegIndex) (s : State) : Result :=
  .next { s with I := s.I + zextByte (s.reg x) }.advance

end Sys2Proof.Machine
end

