-- ==== Sys2Proof/Machine/Control.lean ====
section
/-! DEFINITION. The control instructions (spec 41_control.md). -/

namespace Sys2Proof.Machine

/-- CLS: every pixel to 0. VF is not written (R80). -/
def execCls (s : State) : Result := .next { s with fb := Framebuffer.blank }.advance

/-- RET: pop the return address into `pc`, as it is. StackUnderflow when the stack is empty (R81). -/
def execRet (s : State) : Result :=
  match s.stack with
  | [] => .next (s.raiseIn .ret .stackUnderflow)
  | ra :: rest => .next ({ s with stack := rest }.jump ra)

/-- JP nnn (R82). An odd target faults at the next fetch, not here. -/
def execJp (nnn : Addr12) (s : State) : Result := .next (s.jump (zextAddr nnn))

/-- CALL nnn: push the address after the CALL. StackOverflow when 16 entries are live (R83). -/
def execCall (nnn : Addr12) (s : State) : Result :=
  if s.stack.length < Config.stackDepth then
    .next ({ s with stack := (s.pc + 2) :: s.stack }.jump (zextAddr nnn))
  else .next (s.raiseIn (.call nnn) .stackOverflow)

/-- JP V0, nnn: always V0, no masking to 12 bits (R84). -/
def execJpV0 (nnn : Addr12) (s : State) : Result :=
  .next (s.jump (zextAddr nnn + zextByte (s.reg 0)))

end Sys2Proof.Machine
end

