-- ==== Sys2Proof/Machine/Keypad.lean ====
section
/-! DEFINITION. The keypad instructions (spec 47_keypad.md). -/

namespace Sys2Proof.Machine

/-- SKP Vx: the key of the low nibble is pressed (R137). -/
def execSkp (x : RegIndex) (s : State) : Result :=
  .next (s.skipIf (keyPressed s.keys (lowNibble (s.reg x))))

/-- SKNP Vx: the key of the low nibble is not pressed (R138). -/
def execSknp (x : RegIndex) (s : State) : Result :=
  .next (s.skipIf (!keyPressed s.keys (lowNibble (s.reg x))))

/-- LD Vx, K: open the wait. `pc` stays on the instruction (R139). -/
def execLdVxK (x : RegIndex) (s : State) : Result := .next (s.openKeyWait x)

end Sys2Proof.Machine
end

