-- ==== Sys2Proof/Machine/Move.lean ====
section
/-! DEFINITION. The move instructions (spec 43_move.md). None writes VF as a flag and none can fault. -/

namespace Sys2Proof.Machine

/-- LD Vx, kk (R95). -/
def execLdImm (x : RegIndex) (kk : Byte) (s : State) : Result := .next (s.setReg x kk).advance

/-- LD Vx, Vy (R96). -/
def execLdReg (x y : RegIndex) (s : State) : Result := .next (s.setReg x (s.reg y)).advance

/-- LD I, nnn (R97). -/
def execLdI (nnn : Addr12) (s : State) : Result := .next { s with I := zextAddr nnn }.advance

/-- LD Vx, DT: reading does not change DT (R98). -/
def execLdVxDT (x : RegIndex) (s : State) : Result := .next (s.setReg x s.DT).advance

/-- LD DT, Vx (R99). -/
def execLdDTVx (x : RegIndex) (s : State) : Result := .next { s with DT := s.reg x }.advance

/-- LD ST, Vx (R100). -/
def execLdSTVx (x : RegIndex) (s : State) : Result := .next { s with ST := s.reg x }.advance

/-- LD F, Vx: the glyph address of the digit in the low nibble, whatever memory now holds there (R101). -/
def execLdF (x : RegIndex) (s : State) : Result :=
  .next { s with I := glyphAddr (lowNibble (s.reg x)) }.advance

end Sys2Proof.Machine
end

