-- ==== Sys2Proof/Machine/Random.lean ====
section
/-! DEFINITION. The random instruction (spec 45_random.md). -/

namespace Sys2Proof.Machine

/-- RND Vx, kk: exactly one byte is taken from the source, and masked (R120). -/
def execRnd (x : RegIndex) (kk : Byte) (s : State) : Result :=
  .next (s.takeRnd.setReg x (s.rndByte &&& kk)).advance

end Sys2Proof.Machine
end

