-- ==== Sys2Proof/Machine/Skip.lean ====
section
/-! DEFINITION. The compare-and-skip instructions (spec 42_skip.md). -/

namespace Sys2Proof.Machine

/-- SE Vx, kk (R90). -/
def execSeImm (x : RegIndex) (kk : Byte) (s : State) : Result := .next (s.skipIf (s.reg x == kk))

/-- SNE Vx, kk (R91). -/
def execSneImm (x : RegIndex) (kk : Byte) (s : State) : Result := .next (s.skipIf (s.reg x != kk))

/-- SE Vx, Vy (R92). -/
def execSeReg (x y : RegIndex) (s : State) : Result := .next (s.skipIf (s.reg x == s.reg y))

/-- SNE Vx, Vy (R93). -/
def execSneReg (x y : RegIndex) (s : State) : Result := .next (s.skipIf (s.reg x != s.reg y))

end Sys2Proof.Machine
end

