-- ==== Sys2Proof/Machine/Sprite.lean ====
section
/-! DEFINITION. The draw instruction (spec 46_display.md R125). -/

namespace Sys2Proof.Machine

/-- The drawing DRW makes: the `n` bytes at `I`, at the coordinates in Vx and Vy (R125). -/
def State.drawSprite (s : State) (x y : RegIndex) (n : Nibble) : Drawing :=
  draw s.fb (s.reg x).toNat (s.reg y).toNat (s.mem.readBytes s.I.toNat n.toNat)

/-- The display and VF take what the drawing gives, and `pc` advances. VF is written with or without a collision (R125). -/
def State.showDrawing (s : State) (d : Drawing) : State :=
  ({ s with fb := d.fb }.setReg VF (flagByte d.collided)).advance

/-- DRW Vx, Vy, n: MemoryOutOfBounds before anything is drawn, never when n = 0 (R125, R33). -/
def execDrw (x y : RegIndex) (n : Nibble) (s : State) : Result :=
  .next (s.withRange (.drw x y n) n.toNat (s.showDrawing (s.drawSprite x y n)))

end Sys2Proof.Machine
end

