-- ==== Sys2Proof/Machine/Transfer.lean ====
section
/-! DEFINITION. The memory instructions (spec 48_memory.md). None changes `I` (R148). -/

namespace Sys2Proof.Machine

/-- LD B, Vx: the three decimal digits at `I`, `I + 1`, `I + 2` (R145). -/
def execLdB (x : RegIndex) (s : State) : Result :=
  .next (s.withRange (.ldB x) 3 (s.storeAtI (bcd (s.reg x))))

/-- LD [I], Vx: V0 to Vx at `I` on (R146). -/
def execStoreRegs (x : RegIndex) (s : State) : Result :=
  .next (s.withRange (.storeRegs x) (x.toNat + 1) (s.storeAtI (s.firstRegs (x.toNat + 1))))

/-- LD Vx, [I]: the bytes at `I` on into V0 to Vx (R147). -/
def execLoadRegs (x : RegIndex) (s : State) : Result :=
  .next (s.withRange (.loadRegs x) (x.toNat + 1)
    { s with V := loadInto s.mem s.I.toNat (x.toNat + 1) s.V }.advance)

end Sys2Proof.Machine
end

