-- ==== Sys2Proof/Machine/Events.lean ====
section
/-! DEFINITION. The host's events that run no instruction, and the outputs the host reads (spec 00_scope.md R5,
47_keypad.md R136, 60_exceptions.md R165 to R181, 70_reset_and_hazards.md R190 to R192). -/

namespace Sys2Proof.Machine

/-! ### Timers and keys -/

/-- One count down, floored at 0 (R165). -/
def countDown (t : Byte) : Byte := if t.toNat > 0 then t - 1 else t

/-- `tick()`: both timers, in every mode, and nothing else (R165). -/
def State.tick (s : State) : State := { s with DT := countDown s.DT, ST := countDown s.ST }

/-- `sound_active` (R168). -/
def State.soundActive (s : State) : Bool := s.ST != 0

/-- The key vector with bit `k` set to `pressed` (R136). -/
def setKeyBit (keys : KeyVector) (k : Nat) (pressed : Bool) : KeyVector :=
  if pressed then keys ||| BitVec.twoPow 16 k else keys &&& ~~~(BitVec.twoPow 16 k)

/-- `set_key(code, pressed)`, in every mode. A code above 15 is ignored (R136). -/
def State.setKey (s : State) (code : Nat) (pressed : Bool) : State :=
  if code < 16 then { s with keys := setKeyBit s.keys code pressed } else s

/-! ### The debugger port -/

/-- The mode a saved prior mode restores (R176). -/
def PriorMode.mode : PriorMode → Mode
  | .running => .running
  | .waitingForKey x => .waitingForKey x

/-- The prior mode that a pause of this mode saves, if it can be paused (R175). -/
def Mode.prior : Mode → Option PriorMode
  | .running => some .running
  | .waitingForKey x => some (.waitingForKey x)
  | .paused _ _ => none
  | .halted _ => none

/-- The label a `pause` event leaves (R175). -/
def PauseRequest.reason : PauseRequest → PauseReason
  | .request => .request
  | .breakpoint => .breakpoint

/-- Pause a machine that is Running or WaitingForKey, with the given label. Any other machine is left as it is. -/
def State.pauseWith (s : State) (reason : PauseReason) : State :=
  match s.mode.prior with
  | some p => { s with mode := .paused reason p }
  | none => s

/-- `pause(reason)` (R175). -/
def State.pause (s : State) (reason : PauseRequest) : State := s.pauseWith reason.reason

/-- `resume()` (R176). -/
def State.resume (s : State) : State :=
  match s.mode with
  | .paused _ prior => { s with mode := prior.mode }
  | .running => s
  | .waitingForKey _ => s
  | .halted _ => s

/-- What the port answers the debugger: the event is done, or it is rejected with DebuggerMisuse and nothing
changes (R181, log 10). -/
inductive DebugReply where
  | done (r : Result)
  | debuggerMisuse

/-- Is the machine Paused? -/
def State.isPaused (s : State) : Bool :=
  match s.mode with
  | .paused _ _ => true
  | .running => false
  | .waitingForKey _ => false
  | .halted _ => false

/-- `write_register(index, value)`: while Paused, index 0 to 15. Else rejected (R179). -/
def State.writeRegister (s : State) (index : Nat) (value : Byte) : DebugReply :=
  if s.isPaused && index < 16 then .done (.next (s.setReg (BitVec.ofNat 4 index) value)) else .debuggerMisuse

/-- `write_memory(address, value)`: while Paused, address 0 to 4095. Else rejected (R179). -/
def State.writeMemory (s : State) (address : Nat) (value : Byte) : DebugReply :=
  if s.isPaused && address < Config.memSize then .done (.next { s with mem := s.mem.write address value })
  else .debuggerMisuse

/-- The state after a debugger event: a rejected one leaves it unchanged (R181). -/
def DebugReply.settle (s : State) : DebugReply → Result
  | .done r => r
  | .debuggerMisuse => .next s

/-! ### Reset and load -/

/-- The state `reset(image)` leaves: every piece at its reset value, the image at 0x200. What the host still holds,
its schedule and its random source, is not the machine's and stays (R23, R190, log 5). -/
def State.loaded (s : State) (image : List Byte) : State :=
  { State.reset with
    mem := State.reset.mem.writeBytes Config.progBase image
    rndInputs := s.rndInputs, rndDrawn := s.rndDrawn, schedule := s.schedule }

/-- `reset(image)`, in any mode: LoadFault when the image is longer than 3584 bytes (R190, R192). -/
def State.resetEvent (s : State) (image : List Byte) : Result :=
  if image.length > Config.maxImage then .fault .loadFault else .next (s.loaded image)

/-! ### Outputs -/

/-- `snapshot()`: the 2048 pixels (R127). -/
def State.snapshot (s : State) : Framebuffer := s.fb

/-- What `read_state()` shows (R178): the stack oldest first, memory as its 4096 bytes. -/
structure StateView where
  V : Vector Byte 16
  I : Word
  pc : Word
  DT : Byte
  ST : Byte
  stack : List Word
  mem : List Byte
  mode : Mode
  deriving DecidableEq, Repr

/-- `read_state()`, in every mode (R178). -/
def State.readState (s : State) : StateView where
  V := s.V
  I := s.I
  pc := s.pc
  DT := s.DT
  ST := s.ST
  stack := s.stack.reverse
  mem := s.mem.readBytes 0 Config.memSize
  mode := s.mode

/-- One choice of a debugging host: pause before an instruction whose address is in its breakpoint set, else step.
The set is the host's, not the machine's (R180). -/
def hostChoice (breakpoints : List Word) (s : State) : Event :=
  if s.mode == .running && breakpoints.contains s.pc then .pause .breakpoint else .step

end Sys2Proof.Machine
end

