-- ==== Sys2Proof/Machine/Cycle.lean ====
section
/-! DEFINITION. The `step` event (spec 40_execution_cycle.md R70 to R73), `step_once`, and running one host event. -/

namespace Sys2Proof.Machine

/-- Decode a fetched word and execute it, or raise DecodeFault (R70, R153). -/
def State.runWord (s : State) (w : Word) : Result :=
  match decodeWord w with
  | .instr i => exec i s
  | .illegal _ => .next (s.raise .decodeFault (some w) none)

/-- A step of a Running machine: fetch, decode, execute (R70, R71). -/
def State.runInstruction (s : State) : Result :=
  match s.fetch with
  | .fault cause => .next (s.raise cause none none)
  | .word w => s.runWord w

/-- The `step` event (R70). -/
def State.stepEvent (s : State) : Result :=
  match s.mode with
  | .running => s.runInstruction
  | .waitingForKey x => .next (s.keyWaitCheck x)
  | .paused _ _ => .next s
  | .halted _ => .next s

/-- After the one step of `step_once`: Paused again, unless Halted (R177). -/
def pauseAgain : Result → Result
  | .next t => .next (t.pauseWith .stepDone)
  | .fault f => .fault f
  | .refused r => .refused r

/-- `step_once()`: the prior mode, one step, Paused again. Rejected outside Paused (R177). -/
def State.stepOnce (s : State) : DebugReply :=
  match s.mode with
  | .paused _ prior => .done (pauseAgain { s with mode := prior.mode }.stepEvent)
  | .running => .debuggerMisuse
  | .waitingForKey _ => .debuggerMisuse
  | .halted _ => .debuggerMisuse

/-- Run one host event (R4, R5). -/
def runEvent (e : Event) (s : State) : Result :=
  match e with
  | .step => s.stepEvent
  | .tick => .next s.tick
  | .setKey code pressed => .next (s.setKey code pressed)
  | .pause reason => .next (s.pause reason)
  | .resume => .next s.resume
  | .stepOnce => s.stepOnce.settle s
  | .writeRegister index value => (s.writeRegister index value).settle s
  | .writeMemory address value => (s.writeMemory address value).settle s
  | .reset image => s.resetEvent image

/-- The next event of the machine: the first of the host's schedule, or `step` when the schedule is empty (R4, log 2). -/
def State.nextEvent (s : State) : Result :=
  match s.schedule with
  | [] => s.stepEvent
  | e :: rest => runEvent e { s with schedule := rest }

/-- The state in which the very next event fetches and runs the word: Running, no event before it, and the word at
`pc`, or at PROG_BASE with `pc` there when nothing can be fetched at `pc` (log 4). -/
def State.withWord (s : State) (w : Word) : State :=
  let a := if fetchable s.pc then s.pc else BitVec.ofNat 16 Config.progBase
  { s with
    pc := a, mode := .running, schedule := []
    mem := s.mem.writeBytes a.toNat [wordHi w, wordLo w] }

end Sys2Proof.Machine
end

