-- ==== Sys2Proof/Machine/Step.lean ====
section
/-! DEFINITION. One step of the machine is one event (spec 00_scope.md R4). -/

namespace Sys2Proof.Machine

/-- One step: the next event of the host's schedule, the `step` event when it is empty (R4, R70, log 2). -/
def step (s : State) : Host.Outcome State Fault Refusal := s.nextEvent

/-- The state in which the very next step fetches and runs the table word `w` of `nbits` bits (log 4). -/
def State.withFetchWord (s : State) (nbits w : Nat) : State := s.withWord (tableWord nbits w)

end Sys2Proof.Machine
end

