-- ==== Sys2Proof/Safety.lean ====
section
/-! DEFINITION. The words the statements are made of: what a change leaves alone, which pixels a sprite covers, which
registers an instruction may write, running several instructions, and the invariant of every run. -/

namespace Sys2Proof.Machine

/-! ### Frames -/

/-- The pieces of the state, one register, one byte of memory and one pixel at a time (10_state.md). -/
inductive Part where
  | reg (j : RegIndex)
  | index
  | pc
  | delay
  | sound
  | stack
  | byte (a : Nat)
  | pixel (row : Fin 32) (col : Fin 64)
  | keys
  | armed
  | mode
  | random
  | schedule
  deriving DecidableEq, Repr

/-- The piece is in `t` as it is in `s`. -/
def Part.Same (s t : State) : Part → Prop
  | .reg j => t.reg j = s.reg j
  | .index => t.I = s.I
  | .pc => t.pc = s.pc
  | .delay => t.DT = s.DT
  | .sound => t.ST = s.ST
  | .stack => t.stack = s.stack
  | .byte a => t.mem.read a = s.mem.read a
  | .pixel row col => t.fb.pixel row col = s.fb.pixel row col
  | .keys => t.keys = s.keys
  | .armed => t.keyArmed = s.keyArmed
  | .mode => t.mode = s.mode
  | .random => t.rndInputs = s.rndInputs ∧ t.rndDrawn = s.rndDrawn
  | .schedule => t.schedule = s.schedule

/-- From `s` to `t` nothing changed but pieces that `may` allows. -/
def UnchangedBut (may : Part → Prop) (s t : State) : Prop :=
  ∀ p, ¬ may p → p.Same s t

/-- The part is a byte of memory in the range of `len` bytes from `a`. -/
def Part.inRange (a len : Nat) : Part → Prop
  | .byte k => a ≤ k ∧ k < a + len
  | .reg _ | .index | .pc | .delay | .sound | .stack | .pixel _ _ | .keys | .armed | .mode | .random | .schedule =>
    False

/-- The part is a pixel. -/
def Part.isPixel : Part → Prop
  | .pixel _ _ => True
  | .reg _ | .index | .pc | .delay | .sound | .stack | .byte _ | .keys | .armed | .mode | .random | .schedule =>
    False

/-- The part is a register numbered at most `x`. -/
def Part.isRegUpTo (x : RegIndex) : Part → Prop
  | .reg j => j.toNat ≤ x.toNat
  | .index | .pc | .delay | .sound | .stack | .byte _ | .pixel _ _ | .keys | .armed | .mode | .random | .schedule =>
    False

/-! ### Sprites -/

/-- A set sprite bit lands on this pixel: sprite row `r` is the byte `row r`, its column `c` is bit `7 - c`, and the
pixel it lands on wraps in both directions (R123, R124). -/
def SpriteCovers (x0 y0 n : Nat) (byteOfRow : Nat → Byte) (row : Fin 32) (col : Fin 64) : Prop :=
  ∃ r c, r < n ∧ c < 8 ∧ (byteOfRow r).getLsbD (7 - c) = true ∧
    row.val = (y0 + r) % 32 ∧ col.val = (x0 + c) % 64

/-- `a` XOR covered (R124). -/
def FlippedIf (covered : Prop) (before after : Bool) : Prop :=
  after = true ↔ ((before = true ∧ ¬ covered) ∨ (before = false ∧ covered))

/-! ### Registers an instruction may write -/

/-- The six instructions that write VF as a flag (R11). -/
def writesFlag : Instr → Bool
  | .addReg _ _ | .subReg _ _ | .shr _ _ | .subnReg _ _ | .shl _ _ | .drw _ _ _ => true
  | .cls | .ret | .jp _ | .call _ | .seImm _ _ | .sneImm _ _ | .seReg _ _ | .ldImm _ _ | .addImm _ _ | .ldReg _ _
  | .orReg _ _ | .andReg _ _ | .xorReg _ _ | .sneReg _ _ | .ldI _ | .jpV0 _ | .rnd _ _ | .skp _ | .sknp _
  | .ldVxDT _ | .ldVxK _ | .ldDTVx _ | .ldSTVx _ | .addI _ | .ldF _ | .ldB _ | .storeRegs _ | .loadRegs _ => false

/-- The registers an instruction names as its destination (the rules of 41_control.md to 48_memory.md). The key wait
writes its register at a later step, not when the instruction executes (R139, R140). -/
def isDestination (j : RegIndex) : Instr → Bool
  | .ldImm x _ | .addImm x _ | .rnd x _ | .ldVxDT x => j == x
  | .ldReg x _ | .orReg x _ | .andReg x _ | .xorReg x _ | .addReg x _ | .subReg x _ | .shr x _ | .subnReg x _
  | .shl x _ => j == x
  | .loadRegs x => j.toNat ≤ x.toNat
  | .cls | .ret | .jp _ | .call _ | .seImm _ _ | .sneImm _ _ | .seReg _ _ | .sneReg _ _ | .ldI _ | .jpV0 _
  | .drw _ _ _ | .skp _ | .sknp _ | .ldVxK _ | .ldDTVx _ | .ldSTVx _ | .addI _ | .ldF _ | .ldB _ | .storeRegs _ => false

/-! ### Several instructions, several steps -/

/-- Execute the instructions one after the other, stopping where one does not answer a next state. -/
def execAll : List Instr → State → Result
  | [], s => .next s
  | i :: is, s =>
    match exec i s with
    | .next t => execAll is t
    | .fault f => .fault f
    | .refused r => .refused r

/-- Take `n` steps, stopping where one does not answer a next state. -/
def runSteps : Nat → State → Result
  | 0, s => .next s
  | n + 1, s =>
    match step s with
    | .next t => runSteps n t
    | .fault f => .fault f
    | .refused r => .refused r

/-! ### The invariant -/

/-- A key wait is open: WaitingForKey, or Paused from it (R19). -/
def Mode.inWait : Mode → Bool
  | .waitingForKey _ => true
  | .paused _ (.waitingForKey _) => true
  | .paused _ .running => false
  | .running => false
  | .halted _ => false

/-- The fault record is one that the table of causes gives (R22, R150). -/
def FaultRecord.asTabled (r : FaultRecord) : Prop :=
  match r.cause with
  | .decodeFault => r.dataAddr = none ∧ ∃ w, r.word = some w ∧ wellFormedWord w = false
  | .stackOverflow => r.dataAddr = none ∧ ∃ nnn : Addr12, r.word = some (0x2#4 ++ nnn)
  | .stackUnderflow => r.dataAddr = none ∧ r.word = some 0x00EE
  | .memoryOutOfBounds => r.word.isSome ∧ ∃ a, r.dataAddr = some a ∧ 4096 ≤ a.toNat
  | .fetchOutOfBounds => r.dataAddr = none ∧ r.word = none ∧ r.addr.toNat % 2 = 0 ∧ 4094 < r.addr.toNat
  | .misalignedPC => r.dataAddr = none ∧ r.word = none ∧ r.addr.toNat % 2 = 1

/-- What holds in every state of a run. -/
structure State.Inv (s : State) : Prop where
  /-- Memory is in its one canonical form (log 6). -/
  memory : s.mem.wf
  /-- At most 16 return addresses are live (R15). -/
  stackBound : s.sp ≤ 16
  /-- Every return address is even and at most 4096 (R13, R34). -/
  returnAddresses : ∀ ra ∈ s.stack, ra.toNat % 2 = 0 ∧ ra.toNat ≤ 4096
  /-- `pc` never wraps: the largest value a transfer gives it is 0x10FE (R13). -/
  pcBound : s.pc.toNat ≤ 0x10FE
  /-- Outside a wait the latch is all zeros (R19). -/
  latch : s.mode.inWait = false → s.keyArmed = 0
  /-- During a wait `pc` is the address of the instruction that opened it (R139). -/
  waitPc : s.mode.inWait = true → s.pc.toNat % 2 = 0 ∧ s.pc.toNat ≤ 4094
  /-- A halted machine holds a record of the table, and its `pc` is the faulting address (R73, R150). -/
  halted : ∀ r, s.mode = .halted r → r.asTabled ∧ r.addr = s.pc

end Sys2Proof.Machine
end

