-- ==== Sys2Proof/Certificates/Slice0/Obligations.lean ====
section
/-! DEFINITION. The statements for the provers. Each is about every state, form and operand value the spec gives the
instruction or event it names. "Frame" means `UnchangedBut`: nothing changed but the pieces it lists. -/

open Sys2Proof Sys2Proof.Machine

/-! ### Encoding -/

/-- Words written out from the opcode map (R54), at least one per family, decode to the instruction they stand for,
and unassigned words are illegal (R55 to R57). The patterns are the spec's decision D1. -/
def Obligations.SampleWordsDecode : Prop :=
  decodeBytes [0x00, 0xE0] = .instr .cls ∧ decodeBytes [0x00, 0xEE] = .instr .ret ∧
  decodeBytes [0x12, 0x34] = .instr (.jp 0x234) ∧ decodeBytes [0x3A, 0xBC] = .instr (.seImm 0xA 0xBC) ∧
  decodeBytes [0x8A, 0xB0] = .instr (.ldReg 0xA 0xB) ∧ decodeBytes [0x8A, 0xB7] = .instr (.subnReg 0xA 0xB) ∧
  decodeBytes [0xC3, 0x0F] = .instr (.rnd 0x3 0x0F) ∧ decodeBytes [0xD1, 0x25] = .instr (.drw 0x1 0x2 0x5) ∧
  decodeBytes [0xE1, 0xA1] = .instr (.sknp 0x1) ∧ decodeBytes [0xF2, 0x55] = .instr (.storeRegs 0x2) ∧
  decodeBytes [0x01, 0x23] = .illegal .classZero ∧ decodeBytes [0x8A, 0xB8] = .illegal .functionNibble ∧
  decodeBytes [0xF0, 0x75] = .illegal .functionByte

/-- Decoding what the encoder writes gives the instruction back, for every instruction and every operand value, from
the word and from its two bytes in memory order. -/
def Obligations.DecodeReadsBackEveryEncoding : Prop :=
  ∀ i : Instr, decodeWord (encode i) = .instr i ∧ decodeBytes (encodeBytes i) = .instr i

/-- R64: decoding a valid word and encoding the instruction again gives the identical word, the `y` of a shift
included (R62). -/
def Obligations.EncodeGivesBackEveryLegalWord : Prop :=
  ∀ (w : Word) (i : Instr), decodeWord w = .instr i → encode i = w

/-- A word decodes to an instruction exactly when it lies in a row of the mask and match table, and then it lies in
that instruction's own row and in no other (R54, R59). -/
def Obligations.LegalWordsAreTheTablesWords : Prop :=
  ∀ w : Word, ((∃ i, decodeWord w = .instr i) ↔ wellFormedWord w = true) ∧
    ∀ i, decodeWord w = .instr i → i.row.holds w = true ∧
      ∀ j : Instr, j.row.holds w = true → j.row = i.row

/-! ### The execution cycle -/

/-- A Running machine at an even address up to 4094 whose two bytes there, the first one high, decode to `i` runs
exactly `i` (R32, R70 to R72): as the `step` issued when the host's schedule is empty, and as a `step` that the
schedule holds (the schedule is the model's own, log 2). -/
def Obligations.StepRunsTheDecodedInstruction : Prop :=
  ∀ (s : State) (i : Instr), s.mode = .running → s.pc.toNat % 2 = 0 → s.pc.toNat ≤ 4094 →
    decodeWord (BitVec.ofNat 16
      ((s.mem.read s.pc.toNat).toNat * 256 + (s.mem.read (s.pc.toNat + 1)).toNat)) = .instr i →
    (s.schedule = [] → step s = exec i s) ∧
    (∀ rest, s.schedule = .step :: rest → step s = exec i { s with schedule := rest })

/-- R70: a `step` in Paused or Halted changes nothing, and in WaitingForKey it executes no instruction: `pc` moves
only if the wait ends. -/
def Obligations.StepOutsideRunningExecutesNothing : Prop :=
  ∀ s : State, s.schedule = [] →
    ((∃ reason prior, s.mode = .paused reason prior) → step s = .next s) ∧
    ((∃ record, s.mode = .halted record) → step s = .next s) ∧
    (∀ x, s.mode = .waitingForKey x → ∃ t, step s = .next t ∧
      (t.mode = s.mode ∧ t.pc = s.pc ∨ t.mode = .running ∧ t.pc = s.pc + 2))

/-- The two fetch faults and their order (R71, R150; the spec's decisions D16, D18, D19): an odd `pc` is MisalignedPC
whatever its size, an even `pc` above 4094 is FetchOutOfBounds, and neither record holds a word. -/
def Obligations.FetchFaultsHalt : Prop :=
  ∀ s : State, s.schedule = [] → s.mode = .running →
    (s.pc.toNat % 2 = 1 → step s = .next { s with mode := .halted ⟨.misalignedPC, s.pc, none, none⟩ }) ∧
    (s.pc.toNat % 2 = 0 → 4094 < s.pc.toNat →
      step s = .next { s with mode := .halted ⟨.fetchOutOfBounds, s.pc, none, none⟩ })

/-- R153: a fetched word of no row of the table halts the machine with the address and the raw word, is not retried
however many steps follow, and the all-zero word is such a word. -/
def Obligations.IllegalWordHaltsForGood : Prop :=
  (∀ (s : State) (w : Word) (n : Nat), s.schedule = [] → s.mode = .running →
    s.pc.toNat % 2 = 0 → s.pc.toNat ≤ 4094 →
    w.toNat = (s.mem.read s.pc.toNat).toNat * 256 + (s.mem.read (s.pc.toNat + 1)).toNat →
    wellFormedWord w = false →
    runSteps (n + 1) s =
      .next { s with mode := .halted ⟨.decodeFault, s.pc, some w, none⟩ }) ∧
  wellFormedWord 0x0000 = false

/-! ### Control -/

/-- R80: CLS unsets every pixel, advances, and changes nothing else (VF included). -/
def Obligations.ClsBlanksTheDisplay : Prop :=
  ∀ s : State, ∃ t, exec .cls s = .next t ∧ (∀ row col, t.fb.pixel row col = false) ∧ t.pc = s.pc + 2 ∧
    UnchangedBut (fun p => p.isPixel ∨ p = .pc) s t

/-- R81: RET takes the newest live entry into `pc` and leaves the older entries. On an empty stack it raises
StackUnderflow, which changes the mode alone. -/
def Obligations.ReturnPopsTheNewestAddress : Prop :=
  ∀ s : State,
    (s.sp = 0 → exec .ret s = .next { s with mode := .halted ⟨.stackUnderflow, s.pc, some 0x00EE, none⟩ }) ∧
    (0 < s.sp → ∃ t, exec .ret s = .next t ∧ t.sp = s.sp - 1 ∧ s.stackEntry t.sp = some t.pc ∧
      (∀ k, k < t.sp → t.stackEntry k = s.stackEntry k) ∧
      UnchangedBut (fun p => p = .stack ∨ p = .pc) s t)

/-- R82: JP sets `pc` to the zero-extended address, odd or even, and changes nothing else. A JP to its own address
leaves the whole state as it is. -/
def Obligations.JumpSetsThePc : Prop :=
  ∀ (s : State) (nnn : Addr12),
    (∃ t, exec (.jp nnn) s = .next t ∧ t.pc.toNat = nnn.toNat ∧ UnchangedBut (fun p => p = .pc) s t) ∧
    (s.pc.toNat = nnn.toNat → exec (.jp nnn) s = .next s)

/-- JP V0, nnn adds V0, whatever the digits of `nnn`, with no wrap and no masking to 12 bits (R84, decision D27). -/
def Obligations.JumpV0AddsTheOffset : Prop :=
  ∀ (s : State) (nnn : Addr12), ∃ t, exec (.jpV0 nnn) s = .next t ∧
    t.pc.toNat = nnn.toNat + (s.reg 0).toNat ∧ UnchangedBut (fun p => p = .pc) s t

/-- CALL pushes the address after it and jumps (R83). With 16 live entries it raises StackOverflow, which changes the
mode alone (R83). That it does so with more than 16 too, in states that no run reaches, is the model's choice
(DESIGN CHOICE, log 7). -/
def Obligations.CallPushesTheReturnAddress : Prop :=
  ∀ (s : State) (nnn : Addr12),
    (s.sp < 16 → ∃ t, exec (.call nnn) s = .next t ∧ t.pc.toNat = nnn.toNat ∧ t.sp = s.sp + 1 ∧
      t.stackEntry s.sp = some (s.pc + 2) ∧ (∀ k, k < s.sp → t.stackEntry k = s.stackEntry k) ∧
      UnchangedBut (fun p => p = .stack ∨ p = .pc) s t) ∧
    (16 ≤ s.sp → exec (.call nnn) s = .next { s with
      mode := .halted ⟨.stackOverflow, s.pc, some (BitVec.ofNat 16 (0x2000 + nnn.toNat)), none⟩ })

/-- Calls nested to any depth the stack has room for, then as many returns, leave only `pc` changed: it is the
address after the first call (41_control.md R83, quoting doc00 §8). -/
def Obligations.NestedCallsReturnToTheFirst : Prop :=
  ∀ (s : State) (targets : List Addr12), targets ≠ [] → s.sp + targets.length ≤ 16 →
    execAll (targets.map .call ++ List.replicate targets.length .ret) s = .next { s with pc := s.pc + 2 }

/-! ### Skips -/

/-- R90 to R93: the four compare-and-skips advance by 4 when their condition holds, else by 2, and change nothing
else. -/
def Obligations.CompareSkipsAdvanceByFourOrTwo : Prop :=
  ∀ (s : State) (x y : RegIndex) (kk : Byte),
    (∃ t, exec (.seImm x kk) s = .next t ∧ t.pc = s.pc + (if (s.reg x).toNat = kk.toNat then 4 else 2) ∧
      UnchangedBut (fun p => p = .pc) s t) ∧
    (∃ t, exec (.sneImm x kk) s = .next t ∧ t.pc = s.pc + (if (s.reg x).toNat = kk.toNat then 2 else 4) ∧
      UnchangedBut (fun p => p = .pc) s t) ∧
    (∃ t, exec (.seReg x y) s = .next t ∧ t.pc = s.pc + (if (s.reg x).toNat = (s.reg y).toNat then 4 else 2) ∧
      UnchangedBut (fun p => p = .pc) s t) ∧
    (∃ t, exec (.sneReg x y) s = .next t ∧ t.pc = s.pc + (if (s.reg x).toNat = (s.reg y).toNat then 2 else 4) ∧
      UnchangedBut (fun p => p = .pc) s t)

/-- The key skips test the key whose code is the low nibble of Vx (R137, R138, decision D10), never block, and change
only `pc`. -/
def Obligations.KeySkipsTestTheKeyLevel : Prop :=
  ∀ (s : State) (x : RegIndex),
    (∃ t, exec (.skp x) s = .next t ∧
      t.pc = s.pc + (if s.keys.getLsbD ((s.reg x).toNat % 16) = true then 4 else 2) ∧
      UnchangedBut (fun p => p = .pc) s t) ∧
    (∃ t, exec (.sknp x) s = .next t ∧
      t.pc = s.pc + (if s.keys.getLsbD ((s.reg x).toNat % 16) = true then 2 else 4) ∧
      UnchangedBut (fun p => p = .pc) s t)

/-! ### Moves -/

/-- R95, R96, R98: the moves into a register write the immediate, the other register's old value, the delay timer. VF
is changed only as the destination. -/
def Obligations.MovesWriteTheRegister : Prop :=
  ∀ (s : State) (x y : RegIndex) (kk : Byte),
    (∃ t, exec (.ldImm x kk) s = .next t ∧ t.reg x = kk ∧ t.pc = s.pc + 2 ∧
      UnchangedBut (fun p => p = .reg x ∨ p = .pc) s t) ∧
    (∃ t, exec (.ldReg x y) s = .next t ∧ t.reg x = s.reg y ∧ t.pc = s.pc + 2 ∧
      UnchangedBut (fun p => p = .reg x ∨ p = .pc) s t) ∧
    (∃ t, exec (.ldVxDT x) s = .next t ∧ t.reg x = s.DT ∧ t.pc = s.pc + 2 ∧
      UnchangedBut (fun p => p = .reg x ∨ p = .pc) s t)

/-- R97: LD I, nnn. -/
def Obligations.LoadIndexSetsTheAddress : Prop :=
  ∀ (s : State) (nnn : Addr12), ∃ t, exec (.ldI nnn) s = .next t ∧ t.I.toNat = nnn.toNat ∧ t.pc = s.pc + 2 ∧
    UnchangedBut (fun p => p = .index ∨ p = .pc) s t

/-- LD F gives `I` the glyph address of the low nibble (R101, decisions D10, D11), whatever memory holds. ADD I adds
modulo 65536 and leaves VF (R114, decision D7). -/
def Obligations.IndexArithmeticLeavesVF : Prop :=
  ∀ (s : State) (x : RegIndex),
    (∃ t, exec (.ldF x) s = .next t ∧ t.I.toNat = 0x050 + 5 * ((s.reg x).toNat % 16) ∧ t.pc = s.pc + 2 ∧
      UnchangedBut (fun p => p = .index ∨ p = .pc) s t) ∧
    (∃ t, exec (.addI x) s = .next t ∧ t.I.toNat = (s.I.toNat + (s.reg x).toNat) % 65536 ∧ t.pc = s.pc + 2 ∧
      UnchangedBut (fun p => p = .index ∨ p = .pc) s t)

/-- R99, R100: the timer moves write DT and ST, and `sound_active` follows at once. -/
def Obligations.TimerMovesWriteTheTimer : Prop :=
  ∀ (s : State) (x : RegIndex),
    (∃ t, exec (.ldDTVx x) s = .next t ∧ t.DT = s.reg x ∧ t.pc = s.pc + 2 ∧
      UnchangedBut (fun p => p = .delay ∨ p = .pc) s t) ∧
    (∃ t, exec (.ldSTVx x) s = .next t ∧ t.ST = s.reg x ∧ (t.soundActive = true ↔ (s.reg x).toNat ≠ 0) ∧
      t.pc = s.pc + 2 ∧ UnchangedBut (fun p => p = .sound ∨ p = .pc) s t)

/-! ### Arithmetic and logic -/

/-- ADD Vx, kk wraps modulo 256 and discards the carry (R105, decision D7): VF changes only as the destination. -/
def Obligations.AddImmediateDiscardsTheCarry : Prop :=
  ∀ (s : State) (x : RegIndex) (kk : Byte), ∃ t, exec (.addImm x kk) s = .next t ∧
    (t.reg x).toNat = ((s.reg x).toNat + kk.toNat) % 256 ∧ t.pc = s.pc + 2 ∧
    UnchangedBut (fun p => p = .reg x ∨ p = .pc) s t

/-- OR, AND, XOR work bit by bit on the old values and leave VF alone unless it is the destination (R106 to R108,
decision D6). -/
def Obligations.LogicWorksBitByBit : Prop :=
  ∀ (s : State) (x y : RegIndex),
    (∃ t, exec (.orReg x y) s = .next t ∧
      (∀ k, k < 8 → (t.reg x).getLsbD k = ((s.reg x).getLsbD k || (s.reg y).getLsbD k)) ∧ t.pc = s.pc + 2 ∧
      UnchangedBut (fun p => p = .reg x ∨ p = .pc) s t) ∧
    (∃ t, exec (.andReg x y) s = .next t ∧
      (∀ k, k < 8 → (t.reg x).getLsbD k = ((s.reg x).getLsbD k && (s.reg y).getLsbD k)) ∧ t.pc = s.pc + 2 ∧
      UnchangedBut (fun p => p = .reg x ∨ p = .pc) s t) ∧
    (∃ t, exec (.xorReg x y) s = .next t ∧
      (∀ k, k < 8 → (t.reg x).getLsbD k = ((s.reg x).getLsbD k != (s.reg y).getLsbD k)) ∧ t.pc = s.pc + 2 ∧
      UnchangedBut (fun p => p = .reg x ∨ p = .pc) s t)

/-- R109: ADD Vx, Vy. The flag is written last, so with x = F it is what VF holds and the sum is lost. -/
def Obligations.AddSetsTheCarry : Prop :=
  ∀ (s : State) (x y : RegIndex), ∃ t, exec (.addReg x y) s = .next t ∧
    (x ≠ 0xF → (t.reg x).toNat = ((s.reg x).toNat + (s.reg y).toNat) % 256) ∧
    (t.reg 0xF).toNat = (if (s.reg x).toNat + (s.reg y).toNat > 255 then 1 else 0) ∧ t.pc = s.pc + 2 ∧
    UnchangedBut (fun p => p = .reg x ∨ p = .reg 0xF ∨ p = .pc) s t

/-- SUB is Vx minus Vy, SUBN is Vy minus Vx, both into Vx modulo 256, with VF = 1 exactly when no borrow is needed,
written last (R110, R112, R115; decisions D4, D5). -/
def Obligations.SubtractsSetNotBorrow : Prop :=
  ∀ (s : State) (x y : RegIndex),
    (∃ t, exec (.subReg x y) s = .next t ∧
      (x ≠ 0xF → ((t.reg x).toNat : Int) = (((s.reg x).toNat : Int) - (s.reg y).toNat) % 256) ∧
      (t.reg 0xF).toNat = (if (s.reg x).toNat < (s.reg y).toNat then 0 else 1) ∧ t.pc = s.pc + 2 ∧
      UnchangedBut (fun p => p = .reg x ∨ p = .reg 0xF ∨ p = .pc) s t) ∧
    (∃ t, exec (.subnReg x y) s = .next t ∧
      (x ≠ 0xF → ((t.reg x).toNat : Int) = (((s.reg y).toNat : Int) - (s.reg x).toNat) % 256) ∧
      (t.reg 0xF).toNat = (if (s.reg y).toNat < (s.reg x).toNat then 0 else 1) ∧ t.pc = s.pc + 2 ∧
      UnchangedBut (fun p => p = .reg x ∨ p = .reg 0xF ∨ p = .pc) s t)

/-- The shifts work in place by one bit, whatever `y` is (R60, R111, R113, decision D3), with the bit shifted out in
VF, written last (R115). -/
def Obligations.ShiftsWorkInPlace : Prop :=
  ∀ (s : State) (x y : RegIndex),
    (∃ t, exec (.shr x y) s = .next t ∧ (x ≠ 0xF → (t.reg x).toNat = (s.reg x).toNat / 2) ∧
      (t.reg 0xF).toNat = (s.reg x).toNat % 2 ∧ t.pc = s.pc + 2 ∧
      UnchangedBut (fun p => p = .reg x ∨ p = .reg 0xF ∨ p = .pc) s t) ∧
    (∃ t, exec (.shl x y) s = .next t ∧ (x ≠ 0xF → (t.reg x).toNat = (2 * (s.reg x).toNat) % 256) ∧
      (t.reg 0xF).toNat = (s.reg x).toNat / 128 ∧ t.pc = s.pc + 2 ∧
      UnchangedBut (fun p => p = .reg x ∨ p = .reg 0xF ∨ p = .pc) s t)

/-! ### Random -/

/-- RND takes exactly one byte and masks it (R120). The byte is the host's next supplied one, or a draw from the open
source: where the bytes come from is the model's choice, log 3. No bit outside the mask is ever set. -/
def Obligations.RandomTakesOneByteUnderTheMask : Prop :=
  ∀ (s : State) (x : RegIndex) (kk : Byte), ∃ t r, exec (.rnd x kk) s = .next t ∧ t.reg x = r &&& kk ∧
    (∀ b rest, s.rndInputs = b :: rest → r = b ∧ t.rndInputs = rest ∧ t.rndDrawn = s.rndDrawn) ∧
    (s.rndInputs = [] → r = Config.rndByte s.rndDrawn ∧ t.rndInputs = [] ∧ t.rndDrawn = s.rndDrawn + 1) ∧
    (∀ k, kk.getLsbD k = false → (t.reg x).getLsbD k = false) ∧ t.pc = s.pc + 2 ∧
    UnchangedBut (fun p => p = .reg x ∨ p = .random ∨ p = .pc) s t

/-! ### Display -/

/-- R124: `draw` flips exactly the pixels the sprite covers, and answers whether it covered a set pixel, for any
coordinates and any sprite of at most 15 rows (R123). -/
def Obligations.DrawFlipsExactlyTheCoveredPixels : Prop :=
  ∀ (fb : Framebuffer) (x0 y0 : Nat) (sprite : List Byte), sprite.length ≤ 15 →
    (∀ row col, FlippedIf (SpriteCovers x0 y0 sprite.length (fun r => sprite.getD r 0) row col)
      (fb.pixel row col) ((draw fb x0 y0 sprite).fb.pixel row col)) ∧
    ((draw fb x0 y0 sprite).collided = true ↔
      ∃ row col, fb.pixel row col = true ∧
        SpriteCovers x0 y0 sprite.length (fun r => sprite.getD r 0) row col)

/-- Drawing the same sprite twice at the same place restores the display, and the second draw collides exactly when
the first one set a pixel (R128 (a), (b), derived there from R124; C9). -/
def Obligations.DrawingTwiceRestoresTheDisplay : Prop :=
  ∀ (fb : Framebuffer) (x0 y0 : Nat) (sprite : List Byte), sprite.length ≤ 15 →
    (draw (draw fb x0 y0 sprite).fb x0 y0 sprite).fb = fb ∧
    ((draw (draw fb x0 y0 sprite).fb x0 y0 sprite).collided = true ↔
      ∃ row col, fb.pixel row col = false ∧ (draw fb x0 y0 sprite).fb.pixel row col = true)

/-- On a blank display no draw collides, and a sprite of zero bytes changes nothing and never collides (R128 (c),
(d), derived there from R124). -/
def Obligations.BlankAndEmptyDrawsNeverCollide : Prop :=
  ∀ (fb : Framebuffer) (x0 y0 : Nat) (sprite : List Byte), sprite.length ≤ 15 →
    ((∀ row col, fb.pixel row col = false) → (draw fb x0 y0 sprite).collided = false) ∧
    ((∀ b ∈ sprite, b = 0) → (draw fb x0 y0 sprite).fb = fb ∧ (draw fb x0 y0 sprite).collided = false)

/-- DRW with its sprite in memory, or with height 0 whatever `I` holds, flips the covered pixels at the old
coordinates, writes VF = 1 if a pixel was cleared and VF = 0 otherwise, and advances (R125; decisions D12 to D14). -/
def Obligations.DrwDrawsTheSpriteAtI : Prop :=
  ∀ (s : State) (x y : RegIndex) (n : Nibble), (n = 0 ∨ s.I.toNat + n.toNat ≤ 4096) →
    ∃ t, exec (.drw x y n) s = .next t ∧
      (∀ row col, FlippedIf (SpriteCovers (s.reg x).toNat (s.reg y).toNat n.toNat
          (fun r => s.mem.read (s.I.toNat + r)) row col)
        (s.fb.pixel row col) (t.fb.pixel row col)) ∧
      ((∃ row col, s.fb.pixel row col = true ∧ t.fb.pixel row col = false) → t.reg 0xF = 1) ∧
      ((∀ row col, s.fb.pixel row col = true → t.fb.pixel row col = true) → t.reg 0xF = 0) ∧
      t.pc = s.pc + 2 ∧ UnchangedBut (fun p => p.isPixel ∨ p = .reg 0xF ∨ p = .pc) s t

/-! ### Keys -/

/-- LD Vx, K opens the wait: the keys now up are armed, `pc` and every register stay (R139, decisions D8, D9). -/
def Obligations.LoadKeyOpensTheWait : Prop :=
  ∀ (s : State) (x : RegIndex), ∃ t, exec (.ldVxK x) s = .next t ∧ t.mode = .waitingForKey x ∧
    (∀ k, k < 16 → t.keyArmed.getLsbD k = !s.keys.getLsbD k) ∧
    UnchangedBut (fun p => p = .mode ∨ p = .armed) s t

/-- The key-wait check: the lowest key that is pressed and armed ends the wait with its code in Vx. With none, the
keys now up are armed too and nothing else changes (R140, decision D8). -/
def Obligations.LowestFreshPressEndsTheWait : Prop :=
  ∀ (s : State) (x : RegIndex), s.schedule = [] → s.mode = .waitingForKey x →
    (∀ k, k < 16 → s.keys.getLsbD k = true → s.keyArmed.getLsbD k = true →
      (∀ j, j < k → s.keys.getLsbD j = false ∨ s.keyArmed.getLsbD j = false) →
      ∃ t, step s = .next t ∧ (t.reg x).toNat = k ∧ t.keyArmed = 0 ∧ t.pc = s.pc + 2 ∧ t.mode = .running ∧
        UnchangedBut (fun p => p = .reg x ∨ p = .armed ∨ p = .pc ∨ p = .mode) s t) ∧
    ((∀ k, k < 16 → s.keys.getLsbD k = false ∨ s.keyArmed.getLsbD k = false) →
      ∃ t, step s = .next t ∧
        (∀ k, k < 16 → t.keyArmed.getLsbD k = (s.keyArmed.getLsbD k || !s.keys.getLsbD k)) ∧
        UnchangedBut (fun p => p = .armed) s t)

/-- A key held when the wait opens never ends it by being held: with no key event, any number of steps leaves the
machine waiting, unchanged (R139 to R141, decision D8). -/
def Obligations.HeldKeysNeverEndTheWait : Prop :=
  ∀ (s t : State) (x : RegIndex) (n : Nat), s.schedule = [] → exec (.ldVxK x) s = .next t →
    runSteps n t = .next t

/-- `set_key` changes the one key it names, in every mode, and a code above 15 is ignored (R136, decision D30). -/
def Obligations.SetKeyChangesOneKey : Prop :=
  ∀ (s : State) (code : Nat) (pressed : Bool), ∃ t, runEvent (.setKey code pressed) s = .next t ∧
    (∀ k, k < 16 → t.keys.getLsbD k = if k = code then pressed else s.keys.getLsbD k) ∧
    UnchangedBut (fun p => p = .keys) s t

/-! ### Memory instructions -/

/-- LD B stores the decimal digits, hundreds at `I` (R145, decision D26), when all three bytes are in memory. -/
def Obligations.StoreDecimalDigits : Prop :=
  ∀ (s : State) (x : RegIndex), s.I.toNat ≤ 4093 → ∃ t, exec (.ldB x) s = .next t ∧
    (t.mem.read s.I.toNat).toNat = (s.reg x).toNat / 100 ∧
    (t.mem.read (s.I.toNat + 1)).toNat = (s.reg x).toNat / 10 % 10 ∧
    (t.mem.read (s.I.toNat + 2)).toNat = (s.reg x).toNat % 10 ∧ t.pc = s.pc + 2 ∧
    UnchangedBut (fun p => p.inRange s.I.toNat 3 ∨ p = .pc) s t

/-- R146: LD [I], Vx stores V0 to Vx, Vx included, and leaves `I`. When the last byte lies above 4095 it raises
MemoryOutOfBounds and stores nothing. -/
def Obligations.StoreRegistersAtI : Prop :=
  ∀ (s : State) (x : RegIndex),
    (s.I.toNat + x.toNat ≤ 4095 → ∃ t, exec (.storeRegs x) s = .next t ∧
      (∀ j : RegIndex, j.toNat ≤ x.toNat → t.mem.read (s.I.toNat + j.toNat) = s.reg j) ∧ t.pc = s.pc + 2 ∧
      UnchangedBut (fun p => p.inRange s.I.toNat (x.toNat + 1) ∨ p = .pc) s t) ∧
    (4095 < s.I.toNat + x.toNat → exec (.storeRegs x) s = .next { s with
      mode := .halted ⟨.memoryOutOfBounds, s.pc, some (BitVec.ofNat 16 (0xF055 + 256 * x.toNat)),
        some (BitVec.ofNat 16 (max s.I.toNat 4096))⟩ })

/-- R147: LD Vx, [I] loads V0 to Vx, Vx included, and leaves `I` and memory. When the last byte lies above 4095 it
raises MemoryOutOfBounds and loads nothing. -/
def Obligations.LoadRegistersFromI : Prop :=
  ∀ (s : State) (x : RegIndex),
    (s.I.toNat + x.toNat ≤ 4095 → ∃ t, exec (.loadRegs x) s = .next t ∧
      (∀ j : RegIndex, j.toNat ≤ x.toNat → t.reg j = s.mem.read (s.I.toNat + j.toNat)) ∧ t.pc = s.pc + 2 ∧
      UnchangedBut (fun p => p.isRegUpTo x ∨ p = .pc) s t) ∧
    (4095 < s.I.toNat + x.toNat → exec (.loadRegs x) s = .next { s with
      mode := .halted ⟨.memoryOutOfBounds, s.pc, some (BitVec.ofNat 16 (0xF065 + 256 * x.toNat)),
        some (BitVec.ofNat 16 (max s.I.toNat 4096))⟩ })

/-- DRW of a positive height and LD B whose last byte lies above 4095 raise MemoryOutOfBounds with nothing drawn or
stored (R33, R125, R145; decisions D17, D18). -/
def Obligations.DrawAndDigitsOutOfMemoryHalt : Prop :=
  ∀ (s : State) (x y : RegIndex) (n : Nibble),
    (n ≠ 0 → 4095 < s.I.toNat + n.toNat - 1 → exec (.drw x y n) s = .next { s with
      mode := .halted ⟨.memoryOutOfBounds, s.pc,
        some (BitVec.ofNat 16 (0xD000 + 256 * x.toNat + 16 * y.toNat + n.toNat)),
        some (BitVec.ofNat 16 (max s.I.toNat 4096))⟩ }) ∧
    (4093 < s.I.toNat → exec (.ldB x) s = .next { s with
      mode := .halted ⟨.memoryOutOfBounds, s.pc, some (BitVec.ofNat 16 (0xF033 + 256 * x.toNat)),
        some (BitVec.ofNat 16 (max s.I.toNat 4096))⟩ })

/-- A store is seen by the very next fetch (R42): after LD [I], Vx over the two bytes of the next instruction, the
next step runs the instruction that the two registers spell. -/
def Obligations.StoredBytesAreFetchedNext : Prop :=
  ∀ (s t : State) (x a b : RegIndex) (i : Instr), s.schedule = [] → s.mode = .running →
    s.I.toNat + x.toNat ≤ 4095 → exec (.storeRegs x) s = .next t →
    t.pc.toNat % 2 = 0 → t.pc.toNat = s.I.toNat + a.toNat → b.toNat = a.toNat + 1 → b.toNat ≤ x.toNat →
    decodeWord (BitVec.ofNat 16 ((s.reg a).toNat * 256 + (s.reg b).toNat)) = .instr i →
    step t = exec i t

/-! ### Faults -/

/-- A fault is precise: a step that halts a Running machine changes nothing but the mode, and its record holds the
address of the instruction and is one of the table's (R150 to R152; decisions D17, D18). -/
def Obligations.FaultsChangeOnlyTheMode : Prop :=
  ∀ (s t : State) (r : FaultRecord), s.schedule = [] → s.mode = .running → step s = .next t →
    t.mode = .halted r → t = { s with mode := .halted r } ∧ r.addr = s.pc ∧ r.asTabled

/-- Halted is terminal: whatever events the host sends, any number of them and no `reset` among them, the machine
stays Halted with the same record, and only the timers and the key vector can change (R162, decision D31). -/
def Obligations.HaltedIsTerminal : Prop :=
  ∀ (n : Nat) (s : State) (r : FaultRecord), s.mode = .halted r → (∀ image, .reset image ∉ s.schedule) →
    ∃ t, runSteps n s = .next t ∧ t.mode = .halted r ∧
      UnchangedBut (fun p => p = .delay ∨ p = .sound ∨ p = .keys ∨ p = .schedule) s t

/-- Every step answers a next state, but for a `reset` with an image longer than 3584 bytes, which is a LoadFault
(R150, R159): no instruction and no other event ever stops the model. -/
def Obligations.OnlyALoadFaultStops : Prop :=
  ∀ s : State, (∃ t, step s = .next t) ∨
    (step s = .fault .loadFault ∧ ∃ image rest, s.schedule = .reset image :: rest ∧ 3584 < image.length)

/-! ### Who writes what -/

/-- Each piece of the state is written only by its own instructions (R25, R72): the timers by the timer moves, the
display by CLS and DRW, the stack by CALL and RET, memory by LD B and LD [I], `I` by its three, the latch by LD Vx, K,
and the keys and the host's schedule by none. -/
def Obligations.OnlyItsInstructionsWriteEachPiece : Prop :=
  ∀ (i : Instr) (s t : State), exec i s = .next t →
    t.keys = s.keys ∧ t.schedule = s.schedule ∧
    (t.DT ≠ s.DT → ∃ x, i = .ldDTVx x) ∧ (t.ST ≠ s.ST → ∃ x, i = .ldSTVx x) ∧
    (t.fb ≠ s.fb → i = .cls ∨ ∃ x y n, i = .drw x y n) ∧
    (t.stack ≠ s.stack → i = .ret ∨ ∃ nnn, i = .call nnn) ∧
    (t.mem ≠ s.mem → (∃ x, i = .ldB x) ∨ ∃ x, i = .storeRegs x) ∧
    (t.I ≠ s.I → (∃ nnn, i = .ldI nnn) ∨ (∃ x, i = .addI x) ∨ ∃ x, i = .ldF x) ∧
    (t.keyArmed ≠ s.keyArmed → ∃ x, i = .ldVxK x) ∧
    (¬ Part.random.Same s t → ∃ x kk, i = .rnd x kk)

/-- A register changes only as an instruction's destination, or as VF under the six flag writers. Those leave VF 0 or
1 even when VF is their destination, unless they halt the machine (R11, R115; decisions D5 to D7). -/
def Obligations.OnlySixInstructionsWriteTheFlag : Prop :=
  ∀ (i : Instr) (s t : State), exec i s = .next t →
    (∀ j, isDestination j i = false → ¬ (j = 0xF ∧ writesFlag i = true) → t.reg j = s.reg j) ∧
    (writesFlag i = true → s.mode = .running → t.mode = .running → t.reg 0xF = 0 ∨ t.reg 0xF = 1)

/-- No instruction reads the sound timer (R26, R102) or the key latch (R19): changing either before the instruction
changes nothing else after it. -/
def Obligations.SoundTimerAndLatchAreInvisible : Prop :=
  ∀ (i : Instr) (s t : State) (v : Byte) (latch : KeyVector), exec i s = .next t →
    ((∀ x, i ≠ .ldSTVx x) → exec i { s with ST := v } = .next { t with ST := v }) ∧
    ((∀ x, i = .ldSTVx x → exec i { s with ST := v } = .next t)) ∧
    ((∀ x, i ≠ .ldVxK x) → exec i { s with keyArmed := latch } = .next { t with keyArmed := latch }) ∧
    ((∀ x, i = .ldVxK x → exec i { s with keyArmed := latch } = .next t))

/-- The host's events write only their own state (R25): `tick` the timers, `set_key` the keys, `pause` and `resume`
the mode, and the debugger's writes one register or memory and only while Paused. -/
def Obligations.EventsWriteOnlyTheirState : Prop :=
  ∀ (s t : State),
    (runEvent .tick s = .next t → UnchangedBut (fun p => p = .delay ∨ p = .sound) s t) ∧
    (∀ k b, runEvent (.setKey k b) s = .next t → UnchangedBut (fun p => p = .keys) s t) ∧
    (∀ reason, runEvent (.pause reason) s = .next t → UnchangedBut (fun p => p = .mode) s t) ∧
    (runEvent .resume s = .next t → UnchangedBut (fun p => p = .mode) s t) ∧
    (∀ k v, runEvent (.writeRegister k v) s = .next t →
      UnchangedBut (fun p => s.isPaused = true ∧ k < 16 ∧ p = .reg (BitVec.ofNat 4 k)) s t) ∧
    (∀ a v, runEvent (.writeMemory a v) s = .next t →
      UnchangedBut (fun p => s.isPaused = true ∧ a < 4096 ∧ p = .byte a) s t)

/-! ### Timers -/

/-- After `n` ticks each timer is its old value less `n`, floored at 0, in every mode, and nothing else has changed
(R165, decision D23). The ticks come from the host's schedule (the model's own, log 2). -/
def Obligations.TicksCountBothTimersDown : Prop :=
  ∀ (n : Nat) (s : State), s.schedule = List.replicate n .tick →
    ∃ t, runSteps n s = .next t ∧ t.DT.toNat = s.DT.toNat - n ∧ t.ST.toNat = s.ST.toNat - n ∧
      (t.soundActive = true ↔ n < s.ST.toNat) ∧
      UnchangedBut (fun p => p = .delay ∨ p = .sound ∨ p = .schedule) s t

/-! ### The debugger port -/

/-- `pause` of a Running or waiting machine saves its mode and `resume` restores it exactly. `pause` in Paused or
Halted and `resume` outside Paused change nothing (R175, R176, decision D24). -/
def Obligations.ResumeRestoresWhatPauseSaved : Prop :=
  ∀ (s : State) (reason : PauseRequest),
    (s.mode = .running ∨ (∃ x, s.mode = .waitingForKey x) →
      ∃ t label prior, runEvent (.pause reason) s = .next t ∧ t.mode = .paused label prior ∧
        label ≠ .stepDone ∧ runEvent .resume t = .next s) ∧
    ((∃ label prior, s.mode = .paused label prior) ∨ (∃ r, s.mode = .halted r) →
      runEvent (.pause reason) s = .next s) ∧
    ((∀ label prior, s.mode ≠ .paused label prior) → runEvent .resume s = .next s)

/-- `step_once` runs exactly one step from the saved mode and pauses again with the mode that step left, unless it
halted. Outside Paused it is rejected and changes nothing (R177, R181, decision D24). -/
def Obligations.StepOnceRunsOneStep : Prop :=
  ∀ s : State,
    (∀ label, s.mode = .paused label .running → ∃ t, step { s with mode := .running, schedule := [] } = .next t ∧
      ((∃ r, t.mode = .halted r) → runEvent .stepOnce s = .next { t with schedule := s.schedule }) ∧
      (t.mode = .running →
        runEvent .stepOnce s = .next { t with mode := .paused .stepDone .running, schedule := s.schedule }) ∧
      (∀ x, t.mode = .waitingForKey x →
        runEvent .stepOnce s =
          .next { t with mode := .paused .stepDone (.waitingForKey x), schedule := s.schedule })) ∧
    (∀ label x, s.mode = .paused label (.waitingForKey x) →
      ∃ t, step { s with mode := .waitingForKey x, schedule := [] } = .next t ∧
      (t.mode = .running →
        runEvent .stepOnce s = .next { t with mode := .paused .stepDone .running, schedule := s.schedule }) ∧
      (t.mode = .waitingForKey x →
        runEvent .stepOnce s =
          .next { t with mode := .paused .stepDone (.waitingForKey x), schedule := s.schedule })) ∧
    ((∀ label prior, s.mode ≠ .paused label prior) → runEvent .stepOnce s = .next s)

/-- The debugger's writes take effect while Paused and in range. Otherwise they are rejected with DebuggerMisuse and
the state is unchanged (R179, R181, decision D25). -/
def Obligations.DebuggerWritesOnlyWhilePaused : Prop :=
  ∀ (s : State) (k : Nat) (v : Byte),
    ((∃ label prior, s.mode = .paused label prior) →
      (∀ j : RegIndex, j.toNat = k → ∃ t, runEvent (.writeRegister k v) s = .next t ∧ t.reg j = v ∧
        UnchangedBut (fun p => p = .reg j) s t) ∧
      (k < 4096 → ∃ t, runEvent (.writeMemory k v) s = .next t ∧ t.mem.read k = v ∧
        UnchangedBut (fun p => p = .byte k) s t)) ∧
    ((∀ label prior, s.mode ≠ .paused label prior) ∨ 15 < k →
      s.writeRegister k v = .debuggerMisuse ∧ runEvent (.writeRegister k v) s = .next s) ∧
    ((∀ label prior, s.mode ≠ .paused label prior) ∨ 4095 < k →
      s.writeMemory k v = .debuggerMisuse ∧ runEvent (.writeMemory k v) s = .next s)

/-! ### Reset and the invariant -/

/-- `FONT[0..79]`, glyph 0 first, copied from the table of R193. -/
def fontBytes : List Byte :=
  [0xF0, 0x90, 0x90, 0x90, 0xF0, 0x20, 0x60, 0x20, 0x20, 0x70, 0xF0, 0x10, 0xF0, 0x80, 0xF0] ++
  [0xF0, 0x10, 0xF0, 0x10, 0xF0, 0x90, 0x90, 0xF0, 0x10, 0x10, 0xF0, 0x80, 0xF0, 0x10, 0xF0] ++
  [0xF0, 0x80, 0xF0, 0x90, 0xF0, 0xF0, 0x10, 0x20, 0x40, 0x40, 0xF0, 0x90, 0xF0, 0x90, 0xF0] ++
  [0xF0, 0x90, 0xF0, 0x10, 0xF0, 0xF0, 0x90, 0xF0, 0x90, 0x90, 0xE0, 0x90, 0xE0, 0x90, 0xE0] ++
  [0xF0, 0x80, 0x80, 0x80, 0xF0, 0xE0, 0x90, 0x90, 0x90, 0xE0, 0xF0, 0x80, 0xF0, 0x80, 0xF0] ++
  [0xF0, 0x80, 0xF0, 0x80, 0x80]

/-- R192: `reset` accepts an image of at most 3584 bytes, and a longer one is a LoadFault, in any mode. -/
def Obligations.OversizedImageIsALoadFault : Prop :=
  ∀ (s : State) (image : List Byte),
    (image.length ≤ 3584 → ∃ t, runEvent (.reset image) s = .next t ∧
      ∀ k, k < image.length → t.mem.read (0x200 + k) = image.getD k 0) ∧
    (3584 < image.length → runEvent (.reset image) s = .fault .loadFault)

/-- What `reset(image)` leaves (R24, R190, R191, R193, R194; decisions D11, D20, D21), from any state: the image
byte for byte from 0x200, the 80 font bytes from 0x050, zero in every other byte, all registers, timers, keys and pixels
zero, an empty stack, `pc` = 0x200, Running. With the empty image that is `State.reset` (log 4). -/
def Obligations.ResetLeavesTheResetState : Prop :=
  (∀ (s : State) (image : List Byte), image.length ≤ 3584 → ∃ t, runEvent (.reset image) s = .next t ∧
    (∀ j, t.reg j = 0) ∧ t.I = 0 ∧ t.pc = 0x0200 ∧ t.DT = 0 ∧ t.ST = 0 ∧ t.soundActive = false ∧ t.sp = 0 ∧
    (∀ row col, t.fb.pixel row col = false) ∧ t.keys = 0 ∧ t.keyArmed = 0 ∧ t.mode = .running ∧
    (∀ k, k < 80 → t.mem.read (0x050 + k) = fontBytes.getD k 0) ∧
    (∀ k, k < image.length → t.mem.read (0x200 + k) = image.getD k 0) ∧
    (∀ a, a < 4096 → a < 0x050 ∨ (0x09F < a ∧ a < 0x200) ∨ 0x200 + image.length ≤ a → t.mem.read a = 0)) ∧
  runEvent (.reset []) State.reset = .next State.reset

/-- The reset state has the invariant (R24; memory's canonical form is the model's, log 6). -/
def Obligations.ResetHasTheInvariant : Prop :=
  State.reset.Inv

/-- Every step keeps the invariant, from every state that has it and under every event the host may send: memory
stays canonical (log 6), at most 16 return addresses live (R15), all even and at most 4096 (R34), `pc` never wraps
(R13), the latch is zero outside a wait (R19), and a Halted machine holds a record of the table whose address is its
`pc` (R22, R73, R150). -/
def Obligations.EveryStepKeepsTheInvariant : Prop :=
  ∀ s t : State, s.Inv → step s = .next t → t.Inv
end

