-- ==== Sys2Proof/Laws/Decode.lean ====
section
/-! SUPPORT. The fields of a word put together by an encoding format, and the bytes of a word. -/

namespace Sys2Proof

/-! ### The bits of each format (R51) -/

theorem getLsbD_formatA (c : BitVec 4) (a : Addr12) (i : Nat) :
    (formatA c a).getLsbD i = if i < 12 then a.getLsbD i else c.getLsbD (i - 12) :=
  BitVec.getLsbD_append

theorem getLsbD_formatXK (c : BitVec 4) (x : RegIndex) (kk : Byte) (i : Nat) :
    (formatXK c x kk).getLsbD i =
      if i < 8 then kk.getLsbD i else if i - 8 < 4 then x.getLsbD (i - 8) else c.getLsbD (i - 8 - 4) := by
  have h : (formatXK c x kk).getLsbD i = if i < 8 then kk.getLsbD i else (c ++ x).getLsbD (i - 8) :=
    BitVec.getLsbD_append
  rw [h, BitVec.getLsbD_append]

theorem getLsbD_formatXY (c : BitVec 4) (x y : RegIndex) (n : Nibble) (i : Nat) :
    (formatXY c x y n).getLsbD i =
      if i < 4 then n.getLsbD i else if i - 4 < 4 then y.getLsbD (i - 4)
      else if i - 4 - 4 < 4 then x.getLsbD (i - 4 - 4) else c.getLsbD (i - 4 - 4 - 4) := by
  have h : (formatXY c x y n).getLsbD i = if i < 4 then n.getLsbD i else (c ++ x ++ y).getLsbD (i - 4) :=
    BitVec.getLsbD_append
  rw [h, BitVec.getLsbD_append, BitVec.getLsbD_append]

theorem getLsbD_wordOfBytes (hi lo : Byte) (i : Nat) :
    (wordOfBytes hi lo).getLsbD i = if i < 8 then lo.getLsbD i else hi.getLsbD (i - 8) :=
  BitVec.getLsbD_append

/-! ### Fields of each format (R52) -/

@[simp] theorem opClass_formatA (c : BitVec 4) (a : Addr12) : opClass (formatA c a) = c := by
  apply BitVec.eq_of_getLsbD_eq
  intro i hi
  simp [opClass, getLsbD_formatA, hi]

@[simp] theorem fieldNNN_formatA (c : BitVec 4) (a : Addr12) : fieldNNN (formatA c a) = a := by
  apply BitVec.eq_of_getLsbD_eq
  intro i hi
  simp [fieldNNN, getLsbD_formatA, hi]

@[simp] theorem opClass_formatXK (c : BitVec 4) (x : RegIndex) (kk : Byte) : opClass (formatXK c x kk) = c := by
  apply BitVec.eq_of_getLsbD_eq
  intro i hi
  simp [opClass, getLsbD_formatXK, hi, show ¬ 12 + i < 8 by omega,
    show ¬ 12 + i - 8 < 4 by omega, show 12 + i - 8 - 4 = i by omega]

@[simp] theorem fieldX_formatXK (c : BitVec 4) (x : RegIndex) (kk : Byte) : fieldX (formatXK c x kk) = x := by
  apply BitVec.eq_of_getLsbD_eq
  intro i hi
  simp [fieldX, getLsbD_formatXK, hi]

@[simp] theorem fieldKK_formatXK (c : BitVec 4) (x : RegIndex) (kk : Byte) : fieldKK (formatXK c x kk) = kk := by
  apply BitVec.eq_of_getLsbD_eq
  intro i hi
  simp [fieldKK, getLsbD_formatXK, hi]

@[simp] theorem opClass_formatXY (c : BitVec 4) (x y : RegIndex) (n : Nibble) : opClass (formatXY c x y n) = c := by
  apply BitVec.eq_of_getLsbD_eq
  intro i hi
  simp [opClass, getLsbD_formatXY, hi, show ¬ 12 + i < 4 by omega,
    show ¬ 12 + i - 4 < 4 by omega, show ¬ 12 + i - 4 - 4 < 4 by omega, show 12 + i - 4 - 4 - 4 = i by omega]

@[simp] theorem fieldX_formatXY (c : BitVec 4) (x y : RegIndex) (n : Nibble) : fieldX (formatXY c x y n) = x := by
  apply BitVec.eq_of_getLsbD_eq
  intro i hi
  simp [fieldX, getLsbD_formatXY, hi, show ¬ 8 + i < 4 by omega,
    show ¬ 8 + i - 4 < 4 by omega, show 8 + i - 4 - 4 = i by omega]

@[simp] theorem fieldY_formatXY (c : BitVec 4) (x y : RegIndex) (n : Nibble) : fieldY (formatXY c x y n) = y := by
  apply BitVec.eq_of_getLsbD_eq
  intro i hi
  simp [fieldY, getLsbD_formatXY, hi]

@[simp] theorem fieldN_formatXY (c : BitVec 4) (x y : RegIndex) (n : Nibble) : fieldN (formatXY c x y n) = n := by
  apply BitVec.eq_of_getLsbD_eq
  intro i hi
  simp [fieldN, getLsbD_formatXY, hi]

/-! ### Every word is its fields put together -/

/-- A word is format A of its class and its address field. -/
theorem formatA_fields (w : Word) : formatA (opClass w) (fieldNNN w) = w := by
  apply BitVec.eq_of_getLsbD_eq
  intro i hi
  simp only [getLsbD_formatA, opClass, fieldNNN, BitVec.getLsbD_extractLsb']
  by_cases h : i < 12
  · simp [h]
  · simp [h, show i - 12 < 4 by omega, show 12 + (i - 12) = i by omega]

/-- A word is format XK of its class, register and byte fields. -/
theorem formatXK_fields (w : Word) : formatXK (opClass w) (fieldX w) (fieldKK w) = w := by
  apply BitVec.eq_of_getLsbD_eq
  intro i hi
  simp only [getLsbD_formatXK, opClass, fieldX, fieldKK, BitVec.getLsbD_extractLsb']
  by_cases h : i < 8
  · simp [h]
  · by_cases h' : i - 8 < 4
    · simp [h, h', show 8 + (i - 8) = i by omega]
    · simp [h, h', show i - 8 - 4 < 4 by omega, show 12 + (i - 8 - 4) = i by omega]

/-- A word is format XY of its class, register and nibble fields. -/
theorem formatXY_fields (w : Word) : formatXY (opClass w) (fieldX w) (fieldY w) (fieldN w) = w := by
  apply BitVec.eq_of_getLsbD_eq
  intro i hi
  simp only [getLsbD_formatXY, opClass, fieldX, fieldY, fieldN, BitVec.getLsbD_extractLsb']
  by_cases h : i < 4
  · simp [h]
  · by_cases h' : i - 4 < 4
    · simp [h, h', show 4 + (i - 4) = i by omega]
    · by_cases h'' : i - 4 - 4 < 4
      · simp [h, h', h'', show 8 + (i - 4 - 4) = i by omega]
      · simp [h, h', h'', show i - 4 - 4 - 4 < 4 by omega, show 12 + (i - 4 - 4 - 4) = i by omega]

/-! ### Bytes of a word (R32) -/

/-- The two bytes of a word make the word. -/
@[simp] theorem wordOfBytes_hi_lo (w : Word) : wordOfBytes (wordHi w) (wordLo w) = w := by
  apply BitVec.eq_of_getLsbD_eq
  intro i hi
  simp only [getLsbD_wordOfBytes, wordHi, wordLo, BitVec.getLsbD_extractLsb']
  by_cases h : i < 8
  · simp [h]
  · simp [h, show i - 8 < 8 by omega, show 8 + (i - 8) = i by omega]

/-- The value of the word two bytes make (R32). -/
theorem toNat_wordOfBytes (hi lo : Byte) : (wordOfBytes hi lo).toNat = hi.toNat * 256 + lo.toNat := by
  have h : (wordOfBytes hi lo).toNat = hi.toNat <<< 8 ||| lo.toNat := BitVec.toNat_append hi lo
  rw [h, ← Nat.shiftLeft_add_eq_or_of_lt lo.isLt, Nat.shiftLeft_eq]

end Sys2Proof
end

