-- ==== Sys2Proof/Laws/Display.lean ====
section
/-! SUPPORT. The laws of the framebuffer and of the parts of `draw`. -/

namespace Sys2Proof.Machine

/-- Two framebuffers with the same pixels are equal. -/
theorem Framebuffer.ext_pixel (f g : Framebuffer) (h : ∀ row col, f.pixel row col = g.pixel row col) : f = g := by
  apply Vector.ext
  intro i hi
  apply Vector.ext
  intro j hj
  exact h ⟨i, hi⟩ ⟨j, hj⟩

/-- The blank display has no pixel set (R80). -/
@[simp] theorem Framebuffer.pixel_blank (row : Fin 32) (col : Fin 64) : Framebuffer.blank.pixel row col = false := by
  simp [Framebuffer.pixel, Framebuffer.blank]

/-- Flipping one pixel flips it and leaves every other pixel alone (R124). -/
theorem Framebuffer.pixel_flip (fb : Framebuffer) (row r : Fin 32) (col c : Fin 64) :
    (fb.flip row col).pixel r c = if r = row ∧ c = col then !fb.pixel row col else fb.pixel r c := by
  by_cases hr : r = row
  · subst hr
    by_cases hc : c = col
    · subst hc; simp [Framebuffer.flip, Framebuffer.pixel]
    · have : col.val ≠ c.val := fun e => hc (Fin.ext e).symm
      simp [Framebuffer.flip, Framebuffer.pixel, hc, Vector.getElem_set_ne, this]
  · have : row.val ≠ r.val := fun e => hr (Fin.ext e).symm
    simp [Framebuffer.flip, Framebuffer.pixel, hr, Vector.getElem_set_ne, this]

/-- What plotting one sprite bit does to a pixel. -/
theorem Drawing.pixel_plot (d : Drawing) (row r : Fin 32) (col c : Fin 64) (bit : Bool) :
    (d.plot row col bit).fb.pixel r c =
      if bit = true ∧ r = row ∧ c = col then !d.fb.pixel row col else d.fb.pixel r c := by
  cases bit <;> simp [Drawing.plot, Framebuffer.pixel_flip]

/-- What plotting one sprite bit does to the collision flag. -/
theorem Drawing.collided_plot (d : Drawing) (row : Fin 32) (col : Fin 64) (bit : Bool) :
    (d.plot row col bit).collided = (d.collided || (bit && d.fb.pixel row col)) := by
  cases bit <;> simp [Drawing.plot]

/-- A sprite of no rows draws nothing (R124). -/
@[simp] theorem draw_nil (fb : Framebuffer) (x0 y0 : Nat) : draw fb x0 y0 [] = ⟨fb, false⟩ := rfl

end Sys2Proof.Machine
end

