-- ==== Sys2Proof/Laws/Memory.lean ====
section
/-! SUPPORT. The laws of memory: what a read finds after a write, and that every operation keeps the canonical form. -/

namespace Sys2Proof.Machine

@[simp] theorem Memory.read_nil (a : Nat) : Memory.read [] a = unlistedByte a := rfl

theorem Memory.read_insert (m : Memory) (a k : Nat) (b : Byte) (h : ∀ c ∈ m, c.1 ≠ a) :
    (Memory.insert a b m).read k = if k = a then b else m.read k := by
  induction m with
  | nil => simp [Memory.insert, Memory.read, eq_comm]
  | cons c m ih =>
    obtain ⟨j, d⟩ := c
    have hj : j ≠ a := h (j, d) (by simp)
    have ih := ih (fun c hc => h c (by simp [hc]))
    simp only [Memory.insert]
    split
    · simp only [Memory.read, eq_comm]
    · simp only [Memory.read, ih]
      by_cases hk : j = k
      · simp [hk, show k ≠ a from hk ▸ hj]
      · simp [hk]

theorem Memory.read_filter_other (m : Memory) (a k : Nat) (h : k ≠ a) :
    Memory.read (m.filter (fun c => c.1 != a)) k = m.read k := by
  induction m with
  | nil => rfl
  | cons c m ih =>
    obtain ⟨j, d⟩ := c
    by_cases hj : j = a
    · simp [hj, Memory.read, ih, Ne.symm h]
    · simp [hj, Memory.read, ih]

theorem Memory.read_absent (m : Memory) (a : Nat) (h : ∀ c ∈ m, c.1 ≠ a) : m.read a = unlistedByte a := by
  induction m with
  | nil => rfl
  | cons c m ih =>
    simp [Memory.read, h c (by simp), ih (fun c hc => h c (by simp [hc]))]

/-- A read after a write to the same byte gives the byte written (R35). -/
theorem Memory.read_write_same (m : Memory) (a : Nat) (b : Byte) (h : a < Config.memSize) :
    (m.write a b).read a = b := by
  have hne : ∀ c ∈ m.filter (fun c => c.1 != a), c.1 ≠ a := by simp
  simp only [Memory.write, h, if_true]
  split
  · next hb => rw [Memory.read_absent _ _ hne, hb]
  · rw [Memory.read_insert _ _ _ _ hne]; simp

/-- A write leaves every other byte alone (R39). -/
theorem Memory.read_write_other (m : Memory) (a k : Nat) (b : Byte) (h : k ≠ a) :
    (m.write a b).read k = m.read k := by
  have hne : ∀ c ∈ m.filter (fun c => c.1 != a), c.1 ≠ a := by simp
  simp only [Memory.write]
  split
  · split
    · rw [Memory.read_filter_other _ _ _ h]
    · rw [Memory.read_insert _ _ _ _ hne, Memory.read_filter_other _ _ _ h]; simp [h]
  · rfl

/-- Bytes outside the written range read as before. -/
theorem Memory.read_writeBytes_outside (bs : List Byte) (m : Memory) (a k : Nat) (h : k < a ∨ a + bs.length ≤ k) :
    (m.writeBytes a bs).read k = m.read k := by
  induction bs generalizing m a with
  | nil => rfl
  | cons b bs ih =>
    simp only [List.length_cons] at h
    rw [Memory.writeBytes, ih _ _ (by omega), Memory.read_write_other _ _ _ _ (by omega)]

/-- Byte `i` of the written list is what address `a + i` then reads as. -/
theorem Memory.read_writeBytes_inside (bs : List Byte) (m : Memory) (a i : Nat) (hi : i < bs.length)
    (h : a + bs.length ≤ Config.memSize) : (m.writeBytes a bs).read (a + i) = bs[i] := by
  induction bs generalizing m a i with
  | nil => simp at hi
  | cons b bs ih =>
    simp only [List.length_cons] at h hi
    cases i with
    | zero =>
      rw [Memory.writeBytes, Memory.read_writeBytes_outside _ _ _ _ (by omega)]
      exact Memory.read_write_same _ _ _ (by omega)
    | succ i =>
      rw [Memory.writeBytes, show a + (i + 1) = a + 1 + i by omega, ih _ _ _ (by omega) (by omega)]
      rfl

@[simp] theorem Memory.length_readBytes (m : Memory) (a n : Nat) : (m.readBytes a n).length = n := by
  induction n generalizing a with
  | zero => rfl
  | succ n ih => simp [Memory.readBytes, ih]

/-- Byte `i` of a run of bytes is the byte at `a + i`. -/
theorem Memory.getD_readBytes (m : Memory) (a n i : Nat) (h : i < n) :
    (m.readBytes a n).getD i 0 = m.read (a + i) := by
  induction n generalizing a i with
  | zero => omega
  | succ n ih =>
    cases i with
    | zero => simp [Memory.readBytes]
    | succ i =>
      rw [Memory.readBytes, List.getD_cons_succ, ih _ _ (by omega)]
      congr 1; omega

/-! ### The canonical form -/

theorem Memory.wf_nil : Memory.wf [] := by simp [Memory.wf]

theorem Memory.wf_filter (m : Memory) (p : Host.Cell → Bool) (h : m.wf) : Memory.wf (m.filter p) :=
  ⟨h.1.filter p, fun c hc => h.2 c (List.mem_of_mem_filter hc)⟩

theorem Memory.mem_insert (m : Memory) (a : Nat) (b : Byte) (c : Host.Cell) :
    c ∈ Memory.insert a b m ↔ c = (a, b) ∨ c ∈ m := by
  induction m with
  | nil => simp [Memory.insert]
  | cons d m ih =>
    simp only [Memory.insert]
    split
    · simp
    · simp [ih]; tauto

theorem Memory.wf_insert (m : Memory) (a : Nat) (b : Byte) (h : m.wf) (ha : ∀ c ∈ m, c.1 ≠ a)
    (hlt : a < Config.memSize) (hb : b ≠ unlistedByte a) : (Memory.insert a b m).wf := by
  refine ⟨?_, fun c hc => ?_⟩
  · induction m with
    | nil => simp [Memory.insert]
    | cons d m ih =>
      obtain ⟨k, e⟩ := d
      obtain ⟨hp, hall⟩ := h
      obtain ⟨hk, hm⟩ := List.pairwise_cons.mp hp
      have hka : k ≠ a := ha (k, e) (by simp)
      simp only [Memory.insert]
      split
      · next hlt' =>
        refine List.pairwise_cons.mpr ⟨fun c hc => ?_, hp⟩
        rcases List.mem_cons.mp hc with rfl | hc
        · exact hlt'
        · exact Nat.lt_trans hlt' (hk c hc)
      · next hge =>
        refine List.pairwise_cons.mpr ⟨fun c hc => ?_,
          ih ⟨hm, fun c hc => hall c (by simp [hc])⟩ (fun c hc => ha c (by simp [hc]))⟩
        rcases (Memory.mem_insert m a b c).mp hc with rfl | hc
        · show k < a; omega
        · exact hk c hc
  · rcases (Memory.mem_insert m a b c).mp hc with rfl | hc
    · exact ⟨hlt, hb⟩
    · exact h.2 c hc

/-- A write keeps the canonical form. -/
theorem Memory.wf_write (m : Memory) (a : Nat) (b : Byte) (h : m.wf) : (m.write a b).wf := by
  simp only [Memory.write]
  split
  · split
    · exact Memory.wf_filter _ _ h
    · next ha hb => exact Memory.wf_insert _ _ _ (Memory.wf_filter _ _ h) (by simp) ha hb
  · exact h

/-- A run of writes keeps the canonical form. -/
theorem Memory.wf_writeBytes (bs : List Byte) (m : Memory) (a : Nat) (h : m.wf) : (m.writeBytes a bs).wf := by
  induction bs generalizing m a with
  | nil => exact h
  | cons b bs ih => exact ih _ _ (Memory.wf_write _ _ _ h)

/-- The memory of the reset state is in canonical form. -/
theorem State.reset_mem_wf : State.reset.mem.wf := Memory.wf_nil

end Sys2Proof.Machine
end

