-- ==== Sys2Proof/Laws/Operands.lean ====
section
/-! SUPPORT. The laws of the operand forms and the flag computations: each as exact arithmetic on naturals. -/

namespace Sys2Proof.Machine

/-! ### Arithmetic and flags -/

@[simp] theorem toNat_addMod (a b : Byte) : (addMod a b).toNat = (a.toNat + b.toNat) % 256 := by
  simp [addMod]

theorem toNat_subMod (a b : Byte) : (subMod a b).toNat = (a.toNat + 256 - b.toNat) % 256 := by
  simp [subMod]

@[simp] theorem toNat_shiftRight (a : Byte) : (shiftRight a).toNat = a.toNat / 2 := by
  have := a.isLt
  simp [shiftRight]; omega

@[simp] theorem toNat_shiftLeft (a : Byte) : (shiftLeft a).toNat = 2 * a.toNat % 256 := by
  simp [shiftLeft, Nat.mul_comm]

theorem toNat_flagByte (b : Bool) : (flagByte b).toNat = if b then 1 else 0 := by
  cases b <;> rfl

theorem carry_iff (a b : Byte) : carry a b = true ↔ a.toNat + b.toNat > 255 := by simp [carry]

theorem notBorrow_iff (a b : Byte) : notBorrow a b = true ↔ b.toNat ≤ a.toNat := by simp [notBorrow]

theorem shiftedOutRight_iff (a : Byte) : shiftedOutRight a = true ↔ a.toNat % 2 = 1 := by
  simp [shiftedOutRight, BitVec.getLsbD, Nat.testBit_zero]

theorem shiftedOutLeft_iff (a : Byte) : shiftedOutLeft a = true ↔ a.toNat / 128 = 1 := by
  have := a.isLt
  simp [shiftedOutLeft, BitVec.getLsbD, Nat.testBit_eq_decide_div_mod_eq]
  omega

/-! ### Addresses -/

@[simp] theorem toNat_zextAddr (nnn : Addr12) : (zextAddr nnn).toNat = nnn.toNat := by
  have := nnn.isLt
  simp [zextAddr]; omega

@[simp] theorem toNat_zextByte (b : Byte) : (zextByte b).toNat = b.toNat := by
  have := b.isLt
  simp [zextByte]; omega

theorem inMemory_iff (base : Word) (len : Nat) : inMemory base len = true ↔ len = 0 ∨ base.toNat + len ≤ 4096 := by
  simp only [inMemory, Bool.or_eq_true, beq_iff_eq, decide_eq_true_eq]
  exact Iff.rfl

theorem toNat_firstOutOfRange (base : Word) : (firstOutOfRange base).toNat = max base.toNat 4096 := by
  have := base.isLt
  simp [firstOutOfRange, Config.memSize]; omega

/-! ### Registers in bulk (R146, R147) -/

theorem length_firstRegs (s : State) (k : Nat) (h : k ≤ 16) : (s.firstRegs k).length = k := by
  simp [State.firstRegs, h]

theorem getElem_firstRegs (s : State) (k i : Nat) (h : i < (s.firstRegs k).length) (hi : i < 16) :
    (s.firstRegs k)[i] = s.V[i] := by
  simp [State.firstRegs]

/-- The bulk load: the first `k` registers come from memory, the others stay (R147). -/
theorem getElem_loadInto (m : Memory) (base k : Nat) (v : Vector Byte 16) (i : Nat) (hi : i < 16) :
    (loadInto m base k v)[i] = if i < k then m.read (base + i) else v[i] := by
  induction k with
  | zero => simp [loadInto]
  | succ k ih =>
    simp only [loadInto, Vector.getElem_setIfInBounds, ih]
    by_cases h : k = i
    · simp [h]
    · simp [h]; congr 1; simp; omega

/-! ### The key wait (R140) -/

/-- `lowestSet` is the least set bit of a vector that has one (R7). -/
theorem lowestSet_eq (m : KeyVector) (k : Nat) (hk : k < 16) (hset : m.getLsbD k = true)
    (hleast : ∀ j, j < k → m.getLsbD j = false) : lowestSet m = k := by
  have : (List.range 16).find? (fun j => m.getLsbD j) = some k := by
    rw [List.find?_range_eq_some]
    exact ⟨hset, by simp [hk], fun j hj => by simp [hleast j hj]⟩
  simp [lowestSet, this]

end Sys2Proof.Machine
end

