-- ==== Sys2Proof/Laws/State.lean ====
section
/-! SUPPORT. One lemma per field per update of the state, true by rfl: what each shared operation does to each field,
so that no later proof unfolds a record update. -/

namespace Sys2Proof.Machine

/-! ### setReg -/

@[simp] theorem State.setReg_V (s : State) (x : RegIndex) (v : Byte) : (s.setReg x v).V = s.V.set x.toNat v x.isLt := rfl
@[simp] theorem State.setReg_I (s : State) (x : RegIndex) (v : Byte) : (s.setReg x v).I = s.I := rfl
@[simp] theorem State.setReg_pc (s : State) (x : RegIndex) (v : Byte) : (s.setReg x v).pc = s.pc := rfl
@[simp] theorem State.setReg_DT (s : State) (x : RegIndex) (v : Byte) : (s.setReg x v).DT = s.DT := rfl
@[simp] theorem State.setReg_ST (s : State) (x : RegIndex) (v : Byte) : (s.setReg x v).ST = s.ST := rfl
@[simp] theorem State.setReg_stack (s : State) (x : RegIndex) (v : Byte) : (s.setReg x v).stack = s.stack := rfl
@[simp] theorem State.setReg_mem (s : State) (x : RegIndex) (v : Byte) : (s.setReg x v).mem = s.mem := rfl
@[simp] theorem State.setReg_fb (s : State) (x : RegIndex) (v : Byte) : (s.setReg x v).fb = s.fb := rfl
@[simp] theorem State.setReg_keys (s : State) (x : RegIndex) (v : Byte) : (s.setReg x v).keys = s.keys := rfl
@[simp] theorem State.setReg_keyArmed (s : State) (x : RegIndex) (v : Byte) : (s.setReg x v).keyArmed = s.keyArmed := rfl
@[simp] theorem State.setReg_mode (s : State) (x : RegIndex) (v : Byte) : (s.setReg x v).mode = s.mode := rfl
@[simp] theorem State.setReg_rndInputs (s : State) (x : RegIndex) (v : Byte) : (s.setReg x v).rndInputs = s.rndInputs := rfl
@[simp] theorem State.setReg_rndDrawn (s : State) (x : RegIndex) (v : Byte) : (s.setReg x v).rndDrawn = s.rndDrawn := rfl
@[simp] theorem State.setReg_schedule (s : State) (x : RegIndex) (v : Byte) : (s.setReg x v).schedule = s.schedule := rfl

/-! ### advance -/

@[simp] theorem State.advance_V (s : State) : s.advance.V = s.V := rfl
@[simp] theorem State.advance_I (s : State) : s.advance.I = s.I := rfl
@[simp] theorem State.advance_pc (s : State) : s.advance.pc = s.pc + 2 := rfl
@[simp] theorem State.advance_DT (s : State) : s.advance.DT = s.DT := rfl
@[simp] theorem State.advance_ST (s : State) : s.advance.ST = s.ST := rfl
@[simp] theorem State.advance_stack (s : State) : s.advance.stack = s.stack := rfl
@[simp] theorem State.advance_mem (s : State) : s.advance.mem = s.mem := rfl
@[simp] theorem State.advance_fb (s : State) : s.advance.fb = s.fb := rfl
@[simp] theorem State.advance_keys (s : State) : s.advance.keys = s.keys := rfl
@[simp] theorem State.advance_keyArmed (s : State) : s.advance.keyArmed = s.keyArmed := rfl
@[simp] theorem State.advance_mode (s : State) : s.advance.mode = s.mode := rfl
@[simp] theorem State.advance_rndInputs (s : State) : s.advance.rndInputs = s.rndInputs := rfl
@[simp] theorem State.advance_rndDrawn (s : State) : s.advance.rndDrawn = s.rndDrawn := rfl
@[simp] theorem State.advance_schedule (s : State) : s.advance.schedule = s.schedule := rfl

/-! ### skipIf -/

@[simp] theorem State.skipIf_V (s : State) (c : Bool) : (s.skipIf c).V = s.V := rfl
@[simp] theorem State.skipIf_I (s : State) (c : Bool) : (s.skipIf c).I = s.I := rfl
@[simp] theorem State.skipIf_pc (s : State) (c : Bool) : (s.skipIf c).pc = if c then s.pc + 4 else s.pc + 2 := rfl
@[simp] theorem State.skipIf_DT (s : State) (c : Bool) : (s.skipIf c).DT = s.DT := rfl
@[simp] theorem State.skipIf_ST (s : State) (c : Bool) : (s.skipIf c).ST = s.ST := rfl
@[simp] theorem State.skipIf_stack (s : State) (c : Bool) : (s.skipIf c).stack = s.stack := rfl
@[simp] theorem State.skipIf_mem (s : State) (c : Bool) : (s.skipIf c).mem = s.mem := rfl
@[simp] theorem State.skipIf_fb (s : State) (c : Bool) : (s.skipIf c).fb = s.fb := rfl
@[simp] theorem State.skipIf_keys (s : State) (c : Bool) : (s.skipIf c).keys = s.keys := rfl
@[simp] theorem State.skipIf_keyArmed (s : State) (c : Bool) : (s.skipIf c).keyArmed = s.keyArmed := rfl
@[simp] theorem State.skipIf_mode (s : State) (c : Bool) : (s.skipIf c).mode = s.mode := rfl
@[simp] theorem State.skipIf_rndInputs (s : State) (c : Bool) : (s.skipIf c).rndInputs = s.rndInputs := rfl
@[simp] theorem State.skipIf_rndDrawn (s : State) (c : Bool) : (s.skipIf c).rndDrawn = s.rndDrawn := rfl
@[simp] theorem State.skipIf_schedule (s : State) (c : Bool) : (s.skipIf c).schedule = s.schedule := rfl

/-! ### jump -/

@[simp] theorem State.jump_V (s : State) (a : Word) : (s.jump a).V = s.V := rfl
@[simp] theorem State.jump_I (s : State) (a : Word) : (s.jump a).I = s.I := rfl
@[simp] theorem State.jump_pc (s : State) (a : Word) : (s.jump a).pc = a := rfl
@[simp] theorem State.jump_DT (s : State) (a : Word) : (s.jump a).DT = s.DT := rfl
@[simp] theorem State.jump_ST (s : State) (a : Word) : (s.jump a).ST = s.ST := rfl
@[simp] theorem State.jump_stack (s : State) (a : Word) : (s.jump a).stack = s.stack := rfl
@[simp] theorem State.jump_mem (s : State) (a : Word) : (s.jump a).mem = s.mem := rfl
@[simp] theorem State.jump_fb (s : State) (a : Word) : (s.jump a).fb = s.fb := rfl
@[simp] theorem State.jump_keys (s : State) (a : Word) : (s.jump a).keys = s.keys := rfl
@[simp] theorem State.jump_keyArmed (s : State) (a : Word) : (s.jump a).keyArmed = s.keyArmed := rfl
@[simp] theorem State.jump_mode (s : State) (a : Word) : (s.jump a).mode = s.mode := rfl
@[simp] theorem State.jump_rndInputs (s : State) (a : Word) : (s.jump a).rndInputs = s.rndInputs := rfl
@[simp] theorem State.jump_rndDrawn (s : State) (a : Word) : (s.jump a).rndDrawn = s.rndDrawn := rfl
@[simp] theorem State.jump_schedule (s : State) (a : Word) : (s.jump a).schedule = s.schedule := rfl

/-! ### raise -/

@[simp] theorem State.raise_V (s : State) (c : FaultCause) (w d : Option Word) : (s.raise c w d).V = s.V := rfl
@[simp] theorem State.raise_I (s : State) (c : FaultCause) (w d : Option Word) : (s.raise c w d).I = s.I := rfl
@[simp] theorem State.raise_pc (s : State) (c : FaultCause) (w d : Option Word) : (s.raise c w d).pc = s.pc := rfl
@[simp] theorem State.raise_DT (s : State) (c : FaultCause) (w d : Option Word) : (s.raise c w d).DT = s.DT := rfl
@[simp] theorem State.raise_ST (s : State) (c : FaultCause) (w d : Option Word) : (s.raise c w d).ST = s.ST := rfl
@[simp] theorem State.raise_stack (s : State) (c : FaultCause) (w d : Option Word) : (s.raise c w d).stack = s.stack := rfl
@[simp] theorem State.raise_mem (s : State) (c : FaultCause) (w d : Option Word) : (s.raise c w d).mem = s.mem := rfl
@[simp] theorem State.raise_fb (s : State) (c : FaultCause) (w d : Option Word) : (s.raise c w d).fb = s.fb := rfl
@[simp] theorem State.raise_keys (s : State) (c : FaultCause) (w d : Option Word) : (s.raise c w d).keys = s.keys := rfl
@[simp] theorem State.raise_keyArmed (s : State) (c : FaultCause) (w d : Option Word) : (s.raise c w d).keyArmed = s.keyArmed := rfl
@[simp] theorem State.raise_mode (s : State) (c : FaultCause) (w d : Option Word) : (s.raise c w d).mode = .halted ⟨c, s.pc, w, d⟩ := rfl
@[simp] theorem State.raise_rndInputs (s : State) (c : FaultCause) (w d : Option Word) : (s.raise c w d).rndInputs = s.rndInputs := rfl
@[simp] theorem State.raise_rndDrawn (s : State) (c : FaultCause) (w d : Option Word) : (s.raise c w d).rndDrawn = s.rndDrawn := rfl
@[simp] theorem State.raise_schedule (s : State) (c : FaultCause) (w d : Option Word) : (s.raise c w d).schedule = s.schedule := rfl

/-! ### storeAtI -/

@[simp] theorem State.storeAtI_V (s : State) (bs : List Byte) : (s.storeAtI bs).V = s.V := rfl
@[simp] theorem State.storeAtI_I (s : State) (bs : List Byte) : (s.storeAtI bs).I = s.I := rfl
@[simp] theorem State.storeAtI_pc (s : State) (bs : List Byte) : (s.storeAtI bs).pc = s.pc + 2 := rfl
@[simp] theorem State.storeAtI_DT (s : State) (bs : List Byte) : (s.storeAtI bs).DT = s.DT := rfl
@[simp] theorem State.storeAtI_ST (s : State) (bs : List Byte) : (s.storeAtI bs).ST = s.ST := rfl
@[simp] theorem State.storeAtI_stack (s : State) (bs : List Byte) : (s.storeAtI bs).stack = s.stack := rfl
@[simp] theorem State.storeAtI_mem (s : State) (bs : List Byte) : (s.storeAtI bs).mem = s.mem.writeBytes s.I.toNat bs := rfl
@[simp] theorem State.storeAtI_fb (s : State) (bs : List Byte) : (s.storeAtI bs).fb = s.fb := rfl
@[simp] theorem State.storeAtI_keys (s : State) (bs : List Byte) : (s.storeAtI bs).keys = s.keys := rfl
@[simp] theorem State.storeAtI_keyArmed (s : State) (bs : List Byte) : (s.storeAtI bs).keyArmed = s.keyArmed := rfl
@[simp] theorem State.storeAtI_mode (s : State) (bs : List Byte) : (s.storeAtI bs).mode = s.mode := rfl
@[simp] theorem State.storeAtI_rndInputs (s : State) (bs : List Byte) : (s.storeAtI bs).rndInputs = s.rndInputs := rfl
@[simp] theorem State.storeAtI_rndDrawn (s : State) (bs : List Byte) : (s.storeAtI bs).rndDrawn = s.rndDrawn := rfl
@[simp] theorem State.storeAtI_schedule (s : State) (bs : List Byte) : (s.storeAtI bs).schedule = s.schedule := rfl

/-! ### openKeyWait -/

@[simp] theorem State.openKeyWait_V (s : State) (x : RegIndex) : (s.openKeyWait x).V = s.V := rfl
@[simp] theorem State.openKeyWait_I (s : State) (x : RegIndex) : (s.openKeyWait x).I = s.I := rfl
@[simp] theorem State.openKeyWait_pc (s : State) (x : RegIndex) : (s.openKeyWait x).pc = s.pc := rfl
@[simp] theorem State.openKeyWait_DT (s : State) (x : RegIndex) : (s.openKeyWait x).DT = s.DT := rfl
@[simp] theorem State.openKeyWait_ST (s : State) (x : RegIndex) : (s.openKeyWait x).ST = s.ST := rfl
@[simp] theorem State.openKeyWait_stack (s : State) (x : RegIndex) : (s.openKeyWait x).stack = s.stack := rfl
@[simp] theorem State.openKeyWait_mem (s : State) (x : RegIndex) : (s.openKeyWait x).mem = s.mem := rfl
@[simp] theorem State.openKeyWait_fb (s : State) (x : RegIndex) : (s.openKeyWait x).fb = s.fb := rfl
@[simp] theorem State.openKeyWait_keys (s : State) (x : RegIndex) : (s.openKeyWait x).keys = s.keys := rfl
@[simp] theorem State.openKeyWait_keyArmed (s : State) (x : RegIndex) : (s.openKeyWait x).keyArmed = ~~~s.keys := rfl
@[simp] theorem State.openKeyWait_mode (s : State) (x : RegIndex) : (s.openKeyWait x).mode = .waitingForKey x := rfl
@[simp] theorem State.openKeyWait_rndInputs (s : State) (x : RegIndex) : (s.openKeyWait x).rndInputs = s.rndInputs := rfl
@[simp] theorem State.openKeyWait_rndDrawn (s : State) (x : RegIndex) : (s.openKeyWait x).rndDrawn = s.rndDrawn := rfl
@[simp] theorem State.openKeyWait_schedule (s : State) (x : RegIndex) : (s.openKeyWait x).schedule = s.schedule := rfl

/-! ### tick -/

@[simp] theorem State.tick_V (s : State) : s.tick.V = s.V := rfl
@[simp] theorem State.tick_I (s : State) : s.tick.I = s.I := rfl
@[simp] theorem State.tick_pc (s : State) : s.tick.pc = s.pc := rfl
@[simp] theorem State.tick_DT (s : State) : s.tick.DT = countDown s.DT := rfl
@[simp] theorem State.tick_ST (s : State) : s.tick.ST = countDown s.ST := rfl
@[simp] theorem State.tick_stack (s : State) : s.tick.stack = s.stack := rfl
@[simp] theorem State.tick_mem (s : State) : s.tick.mem = s.mem := rfl
@[simp] theorem State.tick_fb (s : State) : s.tick.fb = s.fb := rfl
@[simp] theorem State.tick_keys (s : State) : s.tick.keys = s.keys := rfl
@[simp] theorem State.tick_keyArmed (s : State) : s.tick.keyArmed = s.keyArmed := rfl
@[simp] theorem State.tick_mode (s : State) : s.tick.mode = s.mode := rfl
@[simp] theorem State.tick_rndInputs (s : State) : s.tick.rndInputs = s.rndInputs := rfl
@[simp] theorem State.tick_rndDrawn (s : State) : s.tick.rndDrawn = s.rndDrawn := rfl
@[simp] theorem State.tick_schedule (s : State) : s.tick.schedule = s.schedule := rfl

/-! ### Taking a random byte: only the source moves (R120) -/

@[simp] theorem State.takeRnd_V (s : State) : s.takeRnd.V = s.V := by
  unfold State.takeRnd; split <;> rfl
@[simp] theorem State.takeRnd_I (s : State) : s.takeRnd.I = s.I := by
  unfold State.takeRnd; split <;> rfl
@[simp] theorem State.takeRnd_pc (s : State) : s.takeRnd.pc = s.pc := by
  unfold State.takeRnd; split <;> rfl
@[simp] theorem State.takeRnd_DT (s : State) : s.takeRnd.DT = s.DT := by
  unfold State.takeRnd; split <;> rfl
@[simp] theorem State.takeRnd_ST (s : State) : s.takeRnd.ST = s.ST := by
  unfold State.takeRnd; split <;> rfl
@[simp] theorem State.takeRnd_stack (s : State) : s.takeRnd.stack = s.stack := by
  unfold State.takeRnd; split <;> rfl
@[simp] theorem State.takeRnd_mem (s : State) : s.takeRnd.mem = s.mem := by
  unfold State.takeRnd; split <;> rfl
@[simp] theorem State.takeRnd_fb (s : State) : s.takeRnd.fb = s.fb := by
  unfold State.takeRnd; split <;> rfl
@[simp] theorem State.takeRnd_keys (s : State) : s.takeRnd.keys = s.keys := by
  unfold State.takeRnd; split <;> rfl
@[simp] theorem State.takeRnd_keyArmed (s : State) : s.takeRnd.keyArmed = s.keyArmed := by
  unfold State.takeRnd; split <;> rfl
@[simp] theorem State.takeRnd_mode (s : State) : s.takeRnd.mode = s.mode := by
  unfold State.takeRnd; split <;> rfl
@[simp] theorem State.takeRnd_schedule (s : State) : s.takeRnd.schedule = s.schedule := by
  unfold State.takeRnd; split <;> rfl

/-! ### Registers through the updates -/

@[simp] theorem State.reg_setReg_same (s : State) (x : RegIndex) (v : Byte) : (s.setReg x v).reg x = v := by
  simp [State.reg]

theorem State.reg_setReg_other (s : State) (x j : RegIndex) (v : Byte) (h : j ≠ x) :
    (s.setReg x v).reg j = s.reg j := by
  have : x.toNat ≠ j.toNat := fun e => h (BitVec.eq_of_toNat_eq e).symm
  simp [State.reg, Vector.getElem_set_ne, this]

theorem State.reg_setReg (s : State) (x j : RegIndex) (v : Byte) :
    (s.setReg x v).reg j = if j = x then v else s.reg j := by
  by_cases h : j = x
  · simp [h]
  · simp [h, State.reg_setReg_other]

/-- `reg` looks at the register file alone. -/
theorem State.reg_eq_of_V (s t : State) (h : t.V = s.V) (j : RegIndex) : t.reg j = s.reg j := by
  simp [State.reg, h]

@[simp] theorem State.reg_advance (s : State) (j : RegIndex) : s.advance.reg j = s.reg j := rfl
@[simp] theorem State.reg_skipIf (s : State) (c : Bool) (j : RegIndex) : (s.skipIf c).reg j = s.reg j := rfl
@[simp] theorem State.reg_jump (s : State) (a : Word) (j : RegIndex) : (s.jump a).reg j = s.reg j := rfl
@[simp] theorem State.reg_raise (s : State) (c : FaultCause) (w d : Option Word) (j : RegIndex) :
    (s.raise c w d).reg j = s.reg j := rfl
@[simp] theorem State.reg_storeAtI (s : State) (bs : List Byte) (j : RegIndex) : (s.storeAtI bs).reg j = s.reg j := rfl
@[simp] theorem State.reg_openKeyWait (s : State) (x j : RegIndex) : (s.openKeyWait x).reg j = s.reg j := rfl
@[simp] theorem State.reg_tick (s : State) (j : RegIndex) : s.tick.reg j = s.reg j := rfl
@[simp] theorem State.reg_takeRnd (s : State) (j : RegIndex) : s.takeRnd.reg j = s.reg j :=
  State.reg_eq_of_V _ _ (State.takeRnd_V s) j

/-! ### Result and flag (R115): the flag is written last -/

@[simp] theorem State.writeWithFlag_pc (s : State) (x : RegIndex) (r : Byte) (f : Bool) :
    (s.writeWithFlag x r f).pc = s.pc + 2 := rfl

@[simp] theorem State.writeWithFlag_flag (s : State) (x : RegIndex) (r : Byte) (f : Bool) :
    (s.writeWithFlag x r f).reg VF = flagByte f := by
  simp [State.writeWithFlag]

theorem State.writeWithFlag_result (s : State) (x : RegIndex) (r : Byte) (f : Bool) (h : x ≠ VF) :
    (s.writeWithFlag x r f).reg x = r := by
  simp [State.writeWithFlag, State.reg_setReg_other _ _ _ _ h]

theorem State.writeWithFlag_other (s : State) (x j : RegIndex) (r : Byte) (f : Bool) (hx : j ≠ x) (hf : j ≠ VF) :
    (s.writeWithFlag x r f).reg j = s.reg j := by
  simp [State.writeWithFlag, State.reg_setReg_other _ _ _ _ hx, State.reg_setReg_other _ _ _ _ hf]

end Sys2Proof.Machine
end

