-- ==== Sys2Proof/Laws/Ops.lean ====
section
/-! SUPPORT. For each shared operation, once, everything it can do: the fetch, the checked range, the random port, the
key wait, pausing. -/

namespace Sys2Proof.Machine

/-! ### Fetch (R71) -/

/-- The three cases of the fetch, in the order the spec tests them. -/
theorem State.fetch_cases (s : State) :
    (s.pc.toNat % 2 = 1 ∧ s.fetch = .fault .misalignedPC) ∨
    (s.pc.toNat % 2 = 0 ∧ 4094 < s.pc.toNat ∧ s.fetch = .fault .fetchOutOfBounds) ∨
    (s.pc.toNat % 2 = 0 ∧ s.pc.toNat ≤ 4094 ∧
      s.fetch = .word (wordOfBytes (s.mem.read s.pc.toNat) (s.mem.read (s.pc.toNat + 1)))) := by
  unfold State.fetch
  split
  · next h => exact .inl ⟨h, rfl⟩
  · next h =>
    have h0 : s.pc.toNat % 2 = 0 := by omega
    split
    · next h' => exact .inr (.inl ⟨h0, h', rfl⟩)
    · next h' => exact .inr (.inr ⟨h0, by omega, rfl⟩)

/-- A word is fetched at an even address up to 4094. -/
theorem State.fetch_word (s : State) (h : s.pc.toNat % 2 = 0) (h' : s.pc.toNat ≤ 4094) :
    s.fetch = .word (wordOfBytes (s.mem.read s.pc.toNat) (s.mem.read (s.pc.toNat + 1))) := by
  rcases s.fetch_cases with ⟨h1, _⟩ | ⟨_, h1, _⟩ | ⟨_, _, h1⟩
  · omega
  · omega
  · exact h1

/-! ### Fault entry and the checked range (R33, R151) -/

theorem State.raiseIn_eq (s : State) (i : Instr) (c : FaultCause) :
    s.raiseIn i c = { s with mode := .halted ⟨c, s.pc, some (encode i), none⟩ } := rfl

theorem State.raiseBounds_eq (s : State) (i : Instr) :
    s.raiseBounds i =
      { s with mode := .halted ⟨.memoryOutOfBounds, s.pc, some (encode i), some (firstOutOfRange s.I)⟩ } := rfl

theorem State.withRange_inside (s : State) (i : Instr) (len : Nat) (body : State)
    (h : len = 0 ∨ s.I.toNat + len ≤ 4096) : s.withRange i len body = body := by
  simp [State.withRange, (inMemory_iff s.I len).mpr h]

theorem State.withRange_outside (s : State) (i : Instr) (len : Nat) (body : State)
    (h : len ≠ 0) (h' : 4096 < s.I.toNat + len) : s.withRange i len body = s.raiseBounds i := by
  have : inMemory s.I len ≠ true := fun e => by
    rcases (inMemory_iff s.I len).mp e with e | e <;> omega
  simp [State.withRange, this]

/-- What a checked range can answer: the body, or the fault with nothing done. -/
theorem State.withRange_cases (s : State) (i : Instr) (len : Nat) (body : State) :
    ((len = 0 ∨ s.I.toNat + len ≤ 4096) ∧ s.withRange i len body = body) ∨
    (len ≠ 0 ∧ 4096 < s.I.toNat + len ∧ s.withRange i len body = s.raiseBounds i) := by
  by_cases h : len = 0 ∨ s.I.toNat + len ≤ 4096
  · exact .inl ⟨h, s.withRange_inside i len body h⟩
  · have h1 : len ≠ 0 ∧ 4096 < s.I.toNat + len := by omega
    exact .inr ⟨h1.1, h1.2, s.withRange_outside i len body h1.1 h1.2⟩

/-! ### The random port (R120, R121) -/

theorem State.rndByte_supplied (s : State) (b : Byte) (rest : List Byte) (h : s.rndInputs = b :: rest) :
    s.rndByte = b ∧ s.takeRnd = { s with rndInputs := rest } := by
  simp [State.rndByte, State.takeRnd, h]

theorem State.rndByte_open (s : State) (h : s.rndInputs = []) :
    s.rndByte = Config.rndByte s.rndDrawn ∧ s.takeRnd = { s with rndDrawn := s.rndDrawn + 1 } := by
  simp [State.rndByte, State.takeRnd, h]

/-! ### The key wait (R140) -/

theorem State.keyWaitCheck_miss (s : State) (x : RegIndex) (h : s.keys &&& s.keyArmed = 0) :
    s.keyWaitCheck x = { s with keyArmed := s.keyArmed ||| ~~~s.keys } :=
  if_neg (not_not.mpr h)

theorem State.keyWaitCheck_hit (s : State) (x : RegIndex) (h : s.keys &&& s.keyArmed ≠ 0) :
    s.keyWaitCheck x = { s.setReg x (BitVec.ofNat 8 (lowestSet (s.keys &&& s.keyArmed))) with
      keyArmed := 0, pc := s.pc + 2, mode := .running } :=
  if_pos h

end Sys2Proof.Machine
end

