-- ==== Sys2Proof/Laws/Frames.lean ====
section
/-! SUPPORT. Frames: how they compose, and the frame of each shared operation. -/

namespace Sys2Proof.Machine

theorem Part.same_refl (s : State) (p : Part) : p.Same s s := by
  cases p <;> simp [Part.Same]

theorem Part.same_trans {s t u : State} {p : Part} (h : p.Same s t) (h' : p.Same t u) : p.Same s u := by
  cases p <;> simp_all [Part.Same]

theorem UnchangedBut.refl (may : Part → Prop) (s : State) : UnchangedBut may s s := fun p _ => p.same_refl s

theorem UnchangedBut.mono {may may' : Part → Prop} {s t : State} (h : UnchangedBut may s t)
    (hm : ∀ p, may p → may' p) : UnchangedBut may' s t := fun p hp => h p (fun hp' => hp (hm p hp'))

theorem UnchangedBut.trans {may : Part → Prop} {s t u : State} (h : UnchangedBut may s t)
    (h' : UnchangedBut may t u) : UnchangedBut may s u := fun p hp => Part.same_trans (h p hp) (h' p hp)

/-- Moving `pc` changes `pc` alone. -/
theorem UnchangedBut.setPc (s : State) (a : Word) : UnchangedBut (fun p => p = .pc) s { s with pc := a } := by
  intro p hp
  cases p <;> first | exact absurd rfl hp | exact ⟨rfl, rfl⟩ | rfl

/-- Writing a register changes that register alone (R10). -/
theorem UnchangedBut.setReg (s : State) (x : RegIndex) (v : Byte) :
    UnchangedBut (fun p => p = .reg x) s (s.setReg x v) := by
  intro p hp
  cases p with
  | reg j => exact State.reg_setReg_other s x j v (fun e => hp (by rw [e]))
  | random => exact ⟨rfl, rfl⟩
  | index | pc | delay | sound | stack | byte | pixel | keys | armed | mode | schedule => rfl

/-- Writing a run of bytes changes those bytes alone. -/
theorem UnchangedBut.writeBytes (s : State) (a : Nat) (bs : List Byte) :
    UnchangedBut (fun p => p.inRange a bs.length) s { s with mem := s.mem.writeBytes a bs } := by
  intro p hp
  cases p with
  | byte k => exact Memory.read_writeBytes_outside bs s.mem a k (by simp [Part.inRange] at hp; omega)
  | random => exact ⟨rfl, rfl⟩
  | reg | index | pc | delay | sound | stack | pixel | keys | armed | mode | schedule => rfl

/-- Fault entry changes the mode alone (R152). -/
theorem UnchangedBut.raise (s : State) (c : FaultCause) (w d : Option Word) :
    UnchangedBut (fun p => p = .mode) s (s.raise c w d) := by
  intro p hp
  cases p <;> first | exact absurd rfl hp | exact ⟨rfl, rfl⟩ | rfl

/-- The result, the flag and `pc` are all that a flag-writing instruction changes (R115). -/
theorem UnchangedBut.writeWithFlag (s : State) (x : RegIndex) (r : Byte) (f : Bool) :
    UnchangedBut (fun p => p = .reg x ∨ p = .reg VF ∨ p = .pc) s (s.writeWithFlag x r f) :=
  ((UnchangedBut.setReg s x r).mono (fun _ h => .inl h)).trans
    (((UnchangedBut.setReg _ VF (flagByte f)).mono (fun _ h => .inr (.inl h))).trans
      ((UnchangedBut.setPc _ _).mono (fun _ h => .inr (.inr h))))

end Sys2Proof.Machine
end

