-- ==== Sys2Proof/Laws/PerInstr.lean ====
section
/-! SUPPORT. The family EncodesInRow, instruction by instruction: the word the encoder writes lies in the row of the
mask and match table that stands for the instruction (R54). The encoder is written by format (R51) and the table by
mask, so each checks the other. -/

namespace Sys2Proof.Laws

/-! ### Each format under each mask -/

theorem formatA_mask (c : BitVec 4) (a : Addr12) : formatA c a &&& 0xF000 = formatA c 0 := by
  apply BitVec.eq_of_getLsbD_eq
  intro i hi
  rw [BitVec.getLsbD_and, getLsbD_formatA, getLsbD_formatA]
  interval_cases i <;> simp

theorem formatXK_mask (c : BitVec 4) (x : RegIndex) (kk : Byte) : formatXK c x kk &&& 0xF000 = formatXK c 0 0 := by
  apply BitVec.eq_of_getLsbD_eq
  intro i hi
  rw [BitVec.getLsbD_and, getLsbD_formatXK, getLsbD_formatXK]
  interval_cases i <;> simp

theorem formatXK_mask_byte (c : BitVec 4) (x : RegIndex) (kk : Byte) :
    formatXK c x kk &&& 0xF0FF = formatXK c 0 kk := by
  apply BitVec.eq_of_getLsbD_eq
  intro i hi
  rw [BitVec.getLsbD_and, getLsbD_formatXK, getLsbD_formatXK]
  interval_cases i <;> simp

theorem formatXY_mask (c : BitVec 4) (x y : RegIndex) (n : Nibble) :
    formatXY c x y n &&& 0xF000 = formatXY c 0 0 0 := by
  apply BitVec.eq_of_getLsbD_eq
  intro i hi
  rw [BitVec.getLsbD_and, getLsbD_formatXY, getLsbD_formatXY]
  interval_cases i <;> simp

theorem formatXY_mask_nibble (c : BitVec 4) (x y : RegIndex) (n : Nibble) :
    formatXY c x y n &&& 0xF00F = formatXY c 0 0 n := by
  apply BitVec.eq_of_getLsbD_eq
  intro i hi
  rw [BitVec.getLsbD_and, getLsbD_formatXY, getLsbD_formatXY]
  interval_cases i <;> simp

/-! ### The family -/

/-- The instruction's word lies in the instruction's row. -/
def EncodesInRow.Statement (i : Instr) : Prop := i.row.holds (encode i) = true

theorem holds_of_mask {row : EncodingRow} {w v : Word} (h : w &&& row.mask = v) (hv : v = row.value) :
    row.holds w = true := by
  simp [EncodingRow.holds, h, hv]

theorem EncodesInRow.cls : EncodesInRow.Statement .cls := rfl

theorem EncodesInRow.ret : EncodesInRow.Statement .ret := rfl

theorem EncodesInRow.jp (nnn : Addr12) : EncodesInRow.Statement (.jp nnn) :=
  holds_of_mask (formatA_mask _ _) rfl

theorem EncodesInRow.call (nnn : Addr12) : EncodesInRow.Statement (.call nnn) :=
  holds_of_mask (formatA_mask _ _) rfl

theorem EncodesInRow.seImm (x : RegIndex) (kk : Byte) : EncodesInRow.Statement (.seImm x kk) :=
  holds_of_mask (formatXK_mask _ _ _) rfl

theorem EncodesInRow.sneImm (x : RegIndex) (kk : Byte) : EncodesInRow.Statement (.sneImm x kk) :=
  holds_of_mask (formatXK_mask _ _ _) rfl

theorem EncodesInRow.seReg (x y : RegIndex) : EncodesInRow.Statement (.seReg x y) :=
  holds_of_mask (formatXY_mask_nibble _ _ _ _) rfl

theorem EncodesInRow.ldImm (x : RegIndex) (kk : Byte) : EncodesInRow.Statement (.ldImm x kk) :=
  holds_of_mask (formatXK_mask _ _ _) rfl

theorem EncodesInRow.addImm (x : RegIndex) (kk : Byte) : EncodesInRow.Statement (.addImm x kk) :=
  holds_of_mask (formatXK_mask _ _ _) rfl

theorem EncodesInRow.ldReg (x y : RegIndex) : EncodesInRow.Statement (.ldReg x y) :=
  holds_of_mask (formatXY_mask_nibble _ _ _ _) rfl

theorem EncodesInRow.orReg (x y : RegIndex) : EncodesInRow.Statement (.orReg x y) :=
  holds_of_mask (formatXY_mask_nibble _ _ _ _) rfl

theorem EncodesInRow.andReg (x y : RegIndex) : EncodesInRow.Statement (.andReg x y) :=
  holds_of_mask (formatXY_mask_nibble _ _ _ _) rfl

theorem EncodesInRow.xorReg (x y : RegIndex) : EncodesInRow.Statement (.xorReg x y) :=
  holds_of_mask (formatXY_mask_nibble _ _ _ _) rfl

theorem EncodesInRow.addReg (x y : RegIndex) : EncodesInRow.Statement (.addReg x y) :=
  holds_of_mask (formatXY_mask_nibble _ _ _ _) rfl

theorem EncodesInRow.subReg (x y : RegIndex) : EncodesInRow.Statement (.subReg x y) :=
  holds_of_mask (formatXY_mask_nibble _ _ _ _) rfl

theorem EncodesInRow.shr (x y : RegIndex) : EncodesInRow.Statement (.shr x y) :=
  holds_of_mask (formatXY_mask_nibble _ _ _ _) rfl

theorem EncodesInRow.subnReg (x y : RegIndex) : EncodesInRow.Statement (.subnReg x y) :=
  holds_of_mask (formatXY_mask_nibble _ _ _ _) rfl

theorem EncodesInRow.shl (x y : RegIndex) : EncodesInRow.Statement (.shl x y) :=
  holds_of_mask (formatXY_mask_nibble _ _ _ _) rfl

theorem EncodesInRow.sneReg (x y : RegIndex) : EncodesInRow.Statement (.sneReg x y) :=
  holds_of_mask (formatXY_mask_nibble _ _ _ _) rfl

theorem EncodesInRow.ldI (nnn : Addr12) : EncodesInRow.Statement (.ldI nnn) :=
  holds_of_mask (formatA_mask _ _) rfl

theorem EncodesInRow.jpV0 (nnn : Addr12) : EncodesInRow.Statement (.jpV0 nnn) :=
  holds_of_mask (formatA_mask _ _) rfl

theorem EncodesInRow.rnd (x : RegIndex) (kk : Byte) : EncodesInRow.Statement (.rnd x kk) :=
  holds_of_mask (formatXK_mask _ _ _) rfl

theorem EncodesInRow.drw (x y : RegIndex) (n : Nibble) : EncodesInRow.Statement (.drw x y n) :=
  holds_of_mask (formatXY_mask _ _ _ _) rfl

theorem EncodesInRow.skp (x : RegIndex) : EncodesInRow.Statement (.skp x) :=
  holds_of_mask (formatXK_mask_byte _ _ _) rfl

theorem EncodesInRow.sknp (x : RegIndex) : EncodesInRow.Statement (.sknp x) :=
  holds_of_mask (formatXK_mask_byte _ _ _) rfl

theorem EncodesInRow.ldVxDT (x : RegIndex) : EncodesInRow.Statement (.ldVxDT x) :=
  holds_of_mask (formatXK_mask_byte _ _ _) rfl

theorem EncodesInRow.ldVxK (x : RegIndex) : EncodesInRow.Statement (.ldVxK x) :=
  holds_of_mask (formatXK_mask_byte _ _ _) rfl

theorem EncodesInRow.ldDTVx (x : RegIndex) : EncodesInRow.Statement (.ldDTVx x) :=
  holds_of_mask (formatXK_mask_byte _ _ _) rfl

theorem EncodesInRow.ldSTVx (x : RegIndex) : EncodesInRow.Statement (.ldSTVx x) :=
  holds_of_mask (formatXK_mask_byte _ _ _) rfl

theorem EncodesInRow.addI (x : RegIndex) : EncodesInRow.Statement (.addI x) :=
  holds_of_mask (formatXK_mask_byte _ _ _) rfl

theorem EncodesInRow.ldF (x : RegIndex) : EncodesInRow.Statement (.ldF x) :=
  holds_of_mask (formatXK_mask_byte _ _ _) rfl

theorem EncodesInRow.ldB (x : RegIndex) : EncodesInRow.Statement (.ldB x) :=
  holds_of_mask (formatXK_mask_byte _ _ _) rfl

theorem EncodesInRow.storeRegs (x : RegIndex) : EncodesInRow.Statement (.storeRegs x) :=
  holds_of_mask (formatXK_mask_byte _ _ _) rfl

theorem EncodesInRow.loadRegs (x : RegIndex) : EncodesInRow.Statement (.loadRegs x) :=
  holds_of_mask (formatXK_mask_byte _ _ _) rfl

end Sys2Proof.Laws
end

