-- ==== Sys2Proof/Laws/Run.lean ====
section
/-! SUPPORT. The step function by mode and by the host's schedule, and runs of several steps. -/

namespace Sys2Proof.Machine

/-! ### One step (R70) -/

/-- With no host event scheduled, a step is the `step` event (log 2). -/
theorem step_of_empty (s : State) (h : s.schedule = []) : step s = s.stepEvent := by
  simp [step, State.nextEvent, h]

/-- With an event scheduled, a step is that event on the rest of the schedule (log 2). -/
theorem step_of_scheduled (s : State) (e : Event) (rest : List Event) (h : s.schedule = e :: rest) :
    step s = runEvent e { s with schedule := rest } := by
  simp [step, State.nextEvent, h]

theorem stepEvent_running (s : State) (h : s.mode = .running) : s.stepEvent = s.runInstruction := by
  simp [State.stepEvent, h]

theorem stepEvent_waiting (s : State) (x : RegIndex) (h : s.mode = .waitingForKey x) :
    s.stepEvent = .next (s.keyWaitCheck x) := by
  simp [State.stepEvent, h]

theorem stepEvent_paused (s : State) (reason : PauseReason) (prior : PriorMode) (h : s.mode = .paused reason prior) :
    s.stepEvent = .next s := by
  simp [State.stepEvent, h]

theorem stepEvent_halted (s : State) (r : FaultRecord) (h : s.mode = .halted r) : s.stepEvent = .next s := by
  simp [State.stepEvent, h]

/-! ### Runs -/

@[simp] theorem runSteps_zero (s : State) : runSteps 0 s = .next s := rfl

/-- A run of `n + 1` steps whose first step answers `t` is a run of `n` steps from `t`. -/
theorem runSteps_succ (n : Nat) (s t : State) (h : step s = .next t) : runSteps (n + 1) s = runSteps n t := by
  simp [runSteps, h]

/-- A state that a step leaves as it is stays for any number of steps. -/
theorem runSteps_of_fixed (n : Nat) (s : State) (h : step s = .next s) : runSteps n s = .next s := by
  induction n with
  | zero => rfl
  | succ n ih => rw [runSteps_succ n s s h, ih]

end Sys2Proof.Machine
end

