-- ==== Sys2Proof/Tests/Slice0.lean ====
section
/-! SUPPORT. Tests of single words, single instructions and single events. Every expected result is from
95_test_vectors.md or from the "Example" line of the rule named. After them, one witness for the hypotheses of each
statement that has some. -/

namespace Sys2Proof.Tests

open Sys2Proof.Machine

/-! ### Helpers -/

/-- The next state exists and satisfies `ok`. -/
def after (r : Result) (ok : State → Bool) : Bool :=
  match r with
  | .next t => ok t
  | .fault _ => false
  | .refused _ => false

/-- The reset state with V1 and V2 set. -/
def regs12 (a b : Byte) : State := (State.reset.setReg 1 a).setReg 2 b

/-- The reset state at `pc`, with bytes put at `a`. -/
def placed (pc : Word) (a : Nat) (bytes : List Byte) : State :=
  { State.reset with pc := pc, mem := State.reset.mem.writeBytes a bytes }

/-- The reset state with `n` live return addresses, all 0x0202. -/
def nested (n : Nat) : State := { State.reset with pc := 0x300, stack := List.replicate n 0x0202 }

/-- The reset state waiting for a key into V2, with the given keys and latch. -/
def waiting (keys armed : KeyVector) : State :=
  { State.reset with keys := keys, keyArmed := armed, mode := .waitingForKey 2 }

/-- The reset state Paused from Running. -/
def paused : State := { State.reset with mode := .paused .request .running }

/-- A fault record as a step at 0x200 of the reset state leaves it. -/
def record : FaultRecord := ⟨.decodeFault, 0x200, some 0x0000, none⟩

/-- The reset state Halted. -/
def halted : State := { State.reset with mode := .halted record }

/-- The reset state with one pixel set, at (0, 0). -/
def onePixel : State := { State.reset with fb := Framebuffer.blank.flip 0 0 }

/-! ### Which words are legal (R54 to R57): one ill-formed word or more for each part of the map -/

theorem test_classZero_illegal : wellFormedWord 0x0000 = false ∧ wellFormedWord 0x00E1 = false ∧
    wellFormedWord 0x00FD = false ∧ wellFormedWord 0x0123 = false := by decide

theorem test_class5_class9_illegal : wellFormedWord 0x5121 = false ∧ wellFormedWord 0x512F = false ∧
    wellFormedWord 0x9AB1 = false := by decide

theorem test_class8_illegal : wellFormedWord 0x8AB8 = false ∧ wellFormedWord 0x8ABD = false ∧
    wellFormedWord 0x8ABF = false := by decide

theorem test_classE_illegal : wellFormedWord 0xE19F = false ∧ wellFormedWord 0xE000 = false := by decide

theorem test_classF_illegal : wellFormedWord 0xF000 = false ∧ wellFormedWord 0xF030 = false ∧
    wellFormedWord 0xF075 = false ∧ wellFormedWord 0xFFFF = false ∧ wellFormedWord 0xF090 = false := by decide

theorem test_legal_words : wellFormedWord 0x00EE = true ∧ wellFormedWord 0x8ABE = true ∧
    wellFormedWord 0xDFFF = true := by decide

theorem test_table_size : encodingTable.length = 34 := by decide

/-- No word lies in two rows: two rows differ in a bit that both of them fix (R54). -/
theorem test_rows_disjoint :
    encodingTable.Pairwise (fun p q => p.value &&& (p.mask &&& q.mask) ≠ q.value &&& (p.mask &&& q.mask)) := by
  decide

theorem test_illegal_by_name : decodeWord 0x00FD = .illegal .classZero ∧ decodeWord 0x512F = .illegal .functionNibble ∧
    decodeWord 0x8ABD = .illegal .functionNibble ∧ decodeWord 0xE000 = .illegal .functionByte ∧
    decodeWord 0xF030 = .illegal .functionByte ∧ decodeBytes [0x12] = .illegal .truncated := by decide

/-! ### Decoding: a word of every constructor, written from the encodings of R54 and from 95_test_vectors.md 2.1 -/

theorem test_decode_control : decodeWord 0x00E0 = .instr .cls ∧ decodeWord 0x00EE = .instr .ret ∧
    decodeWord 0x10E0 = .instr (.jp 0x0E0) ∧ decodeWord 0x2FFF = .instr (.call 0xFFF) ∧
    decodeWord 0xBFFF = .instr (.jpV0 0xFFF) := by decide

theorem test_decode_skip : decodeWord 0x3F00 = .instr (.seImm 0xF 0x00) ∧
    decodeWord 0x432A = .instr (.sneImm 0x3 0x2A) ∧ decodeWord 0x5120 = .instr (.seReg 0x1 0x2) ∧
    decodeWord 0x9AB0 = .instr (.sneReg 0xA 0xB) := by decide

theorem test_decode_move : decodeWord 0x6A2A = .instr (.ldImm 0xA 0x2A) ∧
    decodeWord 0x8120 = .instr (.ldReg 0x1 0x2) ∧ decodeWord 0xA208 = .instr (.ldI 0x208) ∧
    decodeWord 0xF307 = .instr (.ldVxDT 0x3) ∧ decodeWord 0xF315 = .instr (.ldDTVx 0x3) ∧
    decodeWord 0xF018 = .instr (.ldSTVx 0x0) ∧ decodeWord 0xF429 = .instr (.ldF 0x4) := by decide

theorem test_decode_arith : decodeWord 0x7102 = .instr (.addImm 0x1 0x02) ∧
    decodeWord 0x8121 = .instr (.orReg 0x1 0x2) ∧ decodeWord 0x8122 = .instr (.andReg 0x1 0x2) ∧
    decodeWord 0x8123 = .instr (.xorReg 0x1 0x2) ∧ decodeWord 0x8124 = .instr (.addReg 0x1 0x2) ∧
    decodeWord 0x8125 = .instr (.subReg 0x1 0x2) ∧ decodeWord 0x8AB6 = .instr (.shr 0xA 0xB) ∧
    decodeWord 0x8AB7 = .instr (.subnReg 0xA 0xB) ∧ decodeWord 0x8ABE = .instr (.shl 0xA 0xB) ∧
    decodeWord 0xF11E = .instr (.addI 0x1) := by decide

theorem test_decode_random_display : decodeWord 0xC30F = .instr (.rnd 0x3 0x0F) ∧
    decodeWord 0xD125 = .instr (.drw 0x1 0x2 0x5) ∧ decodeWord 0xDFFF = .instr (.drw 0xF 0xF 0xF) := by decide

theorem test_decode_keypad : decodeWord 0xE19E = .instr (.skp 0x1) ∧ decodeWord 0xE1A1 = .instr (.sknp 0x1) ∧
    decodeWord 0xF10A = .instr (.ldVxK 0x1) := by decide

theorem test_decode_memory : decodeWord 0xF533 = .instr (.ldB 0x5) ∧ decodeWord 0xF255 = .instr (.storeRegs 0x2) ∧
    decodeWord 0xFF65 = .instr (.loadRegs 0xF) := by decide

theorem test_encode : encode (.shr 0x1 0x2) = 0x8126 ∧ encode (.drw 0xD 0x1 0x5) = 0xDD15 ∧
    encodeBytes (.jp 0x234) = [0x12, 0x34] := by decide

theorem test_decodeTableWord : decodeTableWord 16 0x6A2A = some (.ldImm 0xA 0x2A) ∧
    decodeTableWord 16 0x00EE = some .ret ∧ decodeTableWord 16 0x0123 = none := by decide

/-! ### Control (2.3) -/

theorem test_cls : after (exec .cls (onePixel.setReg 0xF 1))
    (fun t => !t.fb.pixel 0 0 && t.pc == 0x202 && t.reg 0xF == 1) = true := by decide

theorem test_ret : after (exec .ret { State.reset with stack := [0x0306, 0x0202] })
    (fun t => t.pc == 0x0306 && t.stack == [0x0202]) = true := by decide

theorem test_ret_underflow : after (exec .ret State.reset)
    (fun t => t.mode == .halted ⟨.stackUnderflow, 0x200, some 0x00EE, none⟩ && t.pc == 0x200) = true := by decide

theorem test_jp : after (exec (.jp 0xABC) State.reset) (fun t => t.pc == 0x0ABC) = true := by decide

theorem test_call : after (exec (.call 0x200) { State.reset with pc := 0xFFE })
    (fun t => t.pc == 0x200 && t.stack == [0x1000]) = true := by decide

theorem test_call_overflow : after (exec (.call 0x400) (nested 16))
    (fun t => t.mode == .halted ⟨.stackOverflow, 0x300, some 0x2400, none⟩ && t.sp == 16 && t.pc == 0x300) = true := by
  decide

theorem test_jpV0 : after (exec (.jpV0 0xFFF) (State.reset.setReg 0 0xFF)) (fun t => t.pc == 0x10FE) = true := by
  decide

theorem test_jpV0_ignores_x : after (exec (.jpV0 0x300) ((State.reset.setReg 0 0x02).setReg 3 0x40))
    (fun t => t.pc == 0x0302) = true := by decide

/-! ### Compare and skip (2.4) -/

theorem test_seImm : after (exec (.seImm 1 0x00) State.reset) (fun t => t.pc == 0x204) = true ∧
    after (exec (.seImm 1 0x01) State.reset) (fun t => t.pc == 0x202) = true := by decide

theorem test_sneImm : after (exec (.sneImm 1 0xFF) (regs12 0xFF 0)) (fun t => t.pc == 0x202) = true ∧
    after (exec (.sneImm 1 0x00) (regs12 0xFF 0)) (fun t => t.pc == 0x204) = true := by decide

theorem test_seReg : after (exec (.seReg 1 2) (regs12 0x80 0x80)) (fun t => t.pc == 0x204) = true ∧
    after (exec (.seReg 1 2) (regs12 0x80 0x7F)) (fun t => t.pc == 0x202) = true := by decide

theorem test_sneReg : after (exec (.sneReg 1 1) State.reset) (fun t => t.pc == 0x202) = true ∧
    after (exec (.sneReg 1 2) (regs12 0x80 0x7F)) (fun t => t.pc == 0x204) = true := by decide

/-! ### Moves (2.5) -/

theorem test_ldImm : after (exec (.ldImm 0xF 0xAB) State.reset) (fun t => t.reg 0xF == 0xAB && t.pc == 0x202) = true := by
  decide

theorem test_ldReg : after (exec (.ldReg 1 2) (regs12 0 0x99)) (fun t => t.reg 1 == 0x99 && t.reg 2 == 0x99) = true := by
  decide

theorem test_ldI : after (exec (.ldI 0xFFF) State.reset) (fun t => t.I == 0x0FFF) = true := by decide

theorem test_ldVxDT : after (exec (.ldVxDT 5) { State.reset with DT := 0x07 })
    (fun t => t.reg 5 == 0x07 && t.DT == 0x07) = true := by decide

theorem test_ldDTVx : after (exec (.ldDTVx 5) (State.reset.setReg 5 0xFF))
    (fun t => t.DT == 0xFF && t.ST == 0) = true := by decide

theorem test_ldSTVx : after (exec (.ldSTVx 5) (State.reset.setReg 5 0x01))
    (fun t => t.ST == 0x01 && t.soundActive && t.DT == 0) = true := by decide

theorem test_ldF : after (exec (.ldF 5) (State.reset.setReg 5 0x0F)) (fun t => t.I == 0x009B) = true ∧
    after (exec (.ldF 5) (State.reset.setReg 5 0xF7)) (fun t => t.I == 0x0073) = true := by decide

/-! ### Arithmetic and logic (2.6) -/

theorem test_addImm : after (exec (.addImm 1 0x01) (regs12 0xFF 0)) (fun t => t.reg 1 == 0 && t.reg 0xF == 0) = true ∧
    after (exec (.addImm 0xF 0x05) (State.reset.setReg 0xF 0x05)) (fun t => t.reg 0xF == 0x0A) = true := by decide

theorem test_orReg : after (exec (.orReg 1 2) ((regs12 0xAA 0x55).setReg 0xF 1))
    (fun t => t.reg 1 == 0xFF && t.reg 0xF == 1) = true := by decide

theorem test_andReg : after (exec (.andReg 1 2) (regs12 0xF0 0x3C)) (fun t => t.reg 1 == 0x30) = true := by decide

theorem test_xorReg : after (exec (.xorReg 1 2) (regs12 0xF0 0x3C)) (fun t => t.reg 1 == 0xCC) = true := by decide

theorem test_addReg : after (exec (.addReg 1 2) (regs12 0xC8 0x64)) (fun t => t.reg 1 == 0x2C && t.reg 0xF == 1) = true := by
  decide

theorem test_addReg_flag_last : after (exec (.addReg 0xF 2) ((regs12 0 0xFF).setReg 0xF 0x01))
    (fun t => t.reg 0xF == 0x01) = true ∧
    after (exec (.addReg 0xF 2) ((regs12 0 0x07).setReg 0xF 0x01)) (fun t => t.reg 0xF == 0x00) = true := by decide

theorem test_subReg : after (exec (.subReg 1 2) (regs12 0x05 0x07)) (fun t => t.reg 1 == 0xFE && t.reg 0xF == 0) = true ∧
    after (exec (.subReg 1 2) (regs12 0x05 0x05)) (fun t => t.reg 1 == 0 && t.reg 0xF == 1) = true := by decide

theorem test_subnReg : after (exec (.subnReg 1 2) (regs12 0x0A 0x03))
    (fun t => t.reg 1 == 0xF9 && t.reg 0xF == 0 && t.reg 2 == 0x03) = true ∧
    after (exec (.subnReg 1 2) (regs12 0x03 0x0A)) (fun t => t.reg 1 == 0x07 && t.reg 0xF == 1) = true := by decide

theorem test_shr : after (exec (.shr 1 2) (regs12 0x01 0xF0))
    (fun t => t.reg 1 == 0 && t.reg 0xF == 1 && t.reg 2 == 0xF0) = true ∧
    after (exec (.shr 0xF 0) (State.reset.setReg 0xF 0x03)) (fun t => t.reg 0xF == 0x01) = true := by decide

theorem test_shl : after (exec (.shl 1 2) (regs12 0x7F 0x01))
    (fun t => t.reg 1 == 0xFE && t.reg 0xF == 0 && t.reg 2 == 0x01) = true ∧
    after (exec (.shl 0xF 0) (State.reset.setReg 0xF 0x40)) (fun t => t.reg 0xF == 0x00) = true := by decide

theorem test_addI : after (exec (.addI 1) { regs12 0x02 0 with I := 0xFFFF }) (fun t => t.I == 0x0001) = true ∧
    after (exec (.addI 1) { regs12 0x01 0 with I := 0x0FFF }) (fun t => t.I == 0x1000 && t.reg 0xF == 0) = true := by
  decide

/-! ### Random (2.7) -/

theorem test_rnd : after (exec (.rnd 1 0x0F) { State.reset with rndInputs := [0xA5, 0x77] })
    (fun t => t.reg 1 == 0x05 && t.rndInputs == [0x77] && t.pc == 0x202) = true := by decide

theorem test_rnd_flag_register : after (exec (.rnd 0xF 0xF0) { State.reset with rndInputs := [0xA5] })
    (fun t => t.reg 0xF == 0xA0) = true := by decide

/-! ### Display (2.8) -/

theorem test_drw_wraps_column :
    after (exec (.drw 0 1 1) { ((placed 0x200 0x300 [0xC0]).setReg 0 63).setReg 1 31 with I := 0x300 })
      (fun t => t.fb.pixel 31 63 && t.fb.pixel 31 0 && !t.fb.pixel 31 1 && !t.fb.pixel 0 0 && t.reg 0xF == 0) = true := by
  decide

theorem test_drw_collision : after (exec (.drw 0 1 1) { onePixel with I := 0x300, mem := [(0x300, 0x80)] })
    (fun t => !t.fb.pixel 0 0 && t.reg 0xF == 1) = true := by decide

/-! ### Keypad (2.9) -/

theorem test_skp : after (exec (.skp 1) { regs12 0x15 0 with keys := 0x0020 }) (fun t => t.pc == 0x204) = true ∧
    after (exec (.skp 1) { regs12 0x04 0 with keys := 0x0020 }) (fun t => t.pc == 0x202) = true := by decide

theorem test_sknp : after (exec (.sknp 1) { regs12 0x05 0 with keys := 0x0020 }) (fun t => t.pc == 0x202) = true ∧
    after (exec (.sknp 1) (regs12 0x05 0)) (fun t => t.pc == 0x204) = true := by decide

theorem test_ldVxK : after (exec (.ldVxK 2) { State.reset with keys := 0x8001 })
    (fun t => t.mode == .waitingForKey 2 && t.keyArmed == 0x7FFE && t.pc == 0x200) = true := by decide

theorem test_keyWait_lowest : after (step (waiting 0x0A00 0xFFFF))
    (fun t => t.reg 2 == 0x09 && t.keyArmed == 0 && t.pc == 0x202 && t.mode == .running) = true := by decide

theorem test_keyWait_release_arms : after (step (waiting 0x8000 0x7FFE))
    (fun t => t.keyArmed == 0x7FFF && t.mode == .waitingForKey 2 && t.pc == 0x200) = true := by decide

/-! ### Memory instructions (2.10) -/

theorem test_ldB : after (exec (.ldB 5) { State.reset.setReg 5 0x9C with I := 0x300 })
    (fun t => t.mem == [(0x300, 1), (0x301, 5), (0x302, 6)] && t.I == 0x300) = true := by decide

theorem test_ldB_bounds : after (exec (.ldB 3) { State.reset with I := 0xFFE })
    (fun t => t.mode == .halted ⟨.memoryOutOfBounds, 0x200, some 0xF333, some 0x1000⟩ && t.mem == []) = true := by decide

theorem test_storeRegs : after (exec (.storeRegs 2) { (regs12 0x22 0x33).setReg 0 0x11 with I := 0x400 })
    (fun t => t.mem == [(0x400, 0x11), (0x401, 0x22), (0x402, 0x33)] && t.I == 0x400) = true := by decide

theorem test_loadRegs : after (exec (.loadRegs 4) { State.reset.setReg 5 0x77 with I := 0x050 })
    (fun t => t.V.toList.take 6 == [0xF0, 0x90, 0x90, 0x90, 0xF0, 0x77] && t.I == 0x050) = true := by decide

theorem test_loadRegs_bounds : after (exec (.loadRegs 0) { State.reset with I := 0x2000 })
    (fun t => t.mode == .halted ⟨.memoryOutOfBounds, 0x200, some 0xF065, some 0x2000⟩ && t.reg 0 == 0) = true := by decide

/-! ### Fetch and step (2.2, P5) -/

theorem test_fetch_big_endian : (placed 0x200 0x200 [0x12, 0x34]).fetch = .word 0x1234 := by decide

theorem test_fetch_last_word : after (step (placed 0xFFE 0xFFE [0x60, 0x01]))
    (fun t => t.reg 0 == 0x01 && t.pc == 0x1000) = true := by decide

theorem test_fetch_faults : (placed 0x0FFF 0 []).fetch = .fault .misalignedPC ∧
    (placed 0x1000 0 []).fetch = .fault .fetchOutOfBounds ∧ (placed 0x0201 0 []).fetch = .fault .misalignedPC ∧
    (placed 0x10FE 0 []).fetch = .fault .fetchOutOfBounds := by decide

theorem test_first_step_from_reset : after (step State.reset)
    (fun t => t.mode == .halted ⟨.decodeFault, 0x200, some 0x0000, none⟩ && t.pc == 0x200) = true := by decide

theorem test_font_is_no_program : after (step (placed 0x0050 0 []))
    (fun t => t.mode == .halted ⟨.decodeFault, 0x050, some 0xF090, none⟩) = true := by decide

theorem test_withFetchWord : after (step (State.reset.withFetchWord 16 0x6A2A))
    (fun t => t.reg 0xA == 0x2A && t.pc == 0x202) = true := by decide

theorem test_withFetchWord_elsewhere : after (step ((placed 0x0FFF 0 []).withFetchWord 16 0x6A2A))
    (fun t => t.reg 0xA == 0x2A && t.pc == 0x202) = true := by decide

/-! ### Timers, the debugger port, reset (2.11, E8, 2.12) -/

theorem test_tick : after (runEvent .tick { State.reset with DT := 0xFF, ST := 1 })
    (fun t => t.DT == 0xFE && t.ST == 0 && !t.soundActive) = true ∧
    after (runEvent .tick { halted with DT := 3 }) (fun t => t.DT == 2 && t.mode == .halted record) = true := by decide

theorem test_setKey : after (runEvent (.setKey 0xB true) State.reset) (fun t => t.keys == 0x0800) = true ∧
    after (runEvent (.setKey 16 true) State.reset) (fun t => t.keys == 0) = true := by decide

theorem test_breakpoint_pause : hostChoice [0x204] { State.reset with pc := 0x204 } = .pause .breakpoint ∧
    hostChoice [0x204] State.reset = .step := by decide

theorem test_pause_resume : after (runEvent (.pause .breakpoint) State.reset)
    (fun t => t.mode == .paused .breakpoint .running) = true ∧
    after (runEvent .resume paused) (fun t => t.mode == .running) = true := by decide

theorem test_stepOnce : after (runEvent .stepOnce { placed 0x204 0x204 [0x62, 0x33] with mode := paused.mode })
    (fun t => t.reg 2 == 0x33 && t.pc == 0x206 && t.mode == .paused .stepDone .running) = true := by decide

theorem test_writeRegister : after (runEvent (.writeRegister 2 0x44) paused) (fun t => t.reg 2 == 0x44) = true ∧
    after (runEvent (.writeRegister 2 0x44) State.reset) (fun t => t.reg 2 == 0) = true := by decide

theorem test_writeMemory : after (runEvent (.writeMemory 0x050 0) paused) (fun t => t.mem == [(0x050, 0)]) = true ∧
    after (runEvent (.writeMemory 4096 0xFF) paused) (fun t => t.mem == []) = true := by decide

theorem test_reset_event : after (runEvent (.reset [0x12, 0x00]) halted)
    (fun t => t.mem == [(0x200, 0x12)] && t.mem.read 0x09F == 0x80 && t.mode == .running) = true := by decide

theorem test_reset_memory : State.reset.mem.read 0x04F = 0 ∧ State.reset.mem.read 0x050 = 0xF0 ∧
    State.reset.mem.read 0x082 = 0xF0 ∧ State.reset.mem.read 0x09F = 0x80 ∧ State.reset.mem.read 0x0A0 = 0 := by decide

theorem test_readState : (State.reset.readState.pc = 0x200) ∧ State.reset.readState.stack = [] := by decide

/-! ### Witnesses: for each statement with hypotheses, and each clause, a state and operands that meet them -/

/-- EncodeGivesBackEveryLegalWord and LegalWordsAreTheTablesWords. -/
theorem witness_legalWord : decodeWord 0x8126 = .instr (.shr 1 2) ∧ (Instr.shr 1 2).row.holds 0x8126 = true := by decide

/-- StepRunsTheDecodedInstruction, first clause, at the last address a word can be fetched from. -/
theorem witness_step_empty : (placed 4094 4094 [0x60, 0x01]).mode = .running ∧
    (placed 4094 4094 [0x60, 0x01]).pc.toNat % 2 = 0 ∧ (placed 4094 4094 [0x60, 0x01]).pc.toNat ≤ 4094 ∧
    decodeWord (BitVec.ofNat 16 (((placed 4094 4094 [0x60, 0x01]).mem.read 4094).toNat * 256 +
      ((placed 4094 4094 [0x60, 0x01]).mem.read 4095).toNat)) = .instr (.ldImm 0 1) ∧
    (placed 4094 4094 [0x60, 0x01]).schedule = [] := by decide

/-- StepRunsTheDecodedInstruction, second clause. -/
theorem witness_step_scheduled : ({ placed 0 0 [0x60, 0x01] with schedule := [.step, .tick] } : State).pc.toNat % 2 = 0 ∧
    ({ placed 0 0 [0x60, 0x01] with schedule := [.step, .tick] } : State).schedule = .step :: [.tick] ∧
    decodeWord (BitVec.ofNat 16 (((placed 0 0 [0x60, 0x01]).mem.read 0).toNat * 256 +
      ((placed 0 0 [0x60, 0x01]).mem.read 1).toNat)) = .instr (.ldImm 0 1) := by decide

/-- StepOutsideRunningExecutesNothing, all three clauses. -/
theorem witness_outsideRunning : paused.schedule = [] ∧ (∃ reason prior, paused.mode = .paused reason prior) ∧
    halted.schedule = [] ∧ (∃ record, halted.mode = .halted record) ∧
    (waiting 0 0).schedule = [] ∧ (waiting 0 0).mode = .waitingForKey 2 :=
  ⟨rfl, ⟨_, _, rfl⟩, rfl, ⟨_, rfl⟩, rfl, rfl⟩

/-- FetchFaultsHalt: 4095 is under the first clause alone, 4096 under the second alone. -/
theorem witness_fetchFaults : (placed 4095 0 []).mode = .running ∧ (placed 4095 0 []).schedule = [] ∧
    (placed 4095 0 []).pc.toNat % 2 = 1 ∧
    (placed 4096 0 []).pc.toNat % 2 = 0 ∧ 4094 < (placed 4096 0 []).pc.toNat := by decide

/-- IllegalWordHaltsForGood, at the last address a word can be fetched from. -/
theorem witness_illegalWord : (placed 4094 0 []).schedule = [] ∧ (placed 4094 0 []).mode = .running ∧
    (placed 4094 0 []).pc.toNat % 2 = 0 ∧ (placed 4094 0 []).pc.toNat ≤ 4094 ∧
    (0x0000 : Word).toNat = ((placed 4094 0 []).mem.read 4094).toNat * 256 + ((placed 4094 0 []).mem.read 4095).toNat ∧
    wellFormedWord 0x0000 = false := by decide

/-- ReturnPopsTheNewestAddress and CallPushesTheReturnAddress, at depths 0, 1, 15 and 16. -/
theorem witness_stackDepths : (nested 0).sp = 0 ∧ 0 < (nested 1).sp ∧ (nested 15).sp < 16 ∧ 16 ≤ (nested 16).sp := by
  decide

/-- JumpSetsThePc: the address of a jump to itself. -/
theorem witness_jumpToSelf : State.reset.pc.toNat = (0x200 : Addr12).toNat := by decide

/-- NestedCallsReturnToTheFirst: one call from depth 15, and 16 calls from an empty stack. -/
theorem witness_nestedCalls : ([0x200] : List Addr12) ≠ [] ∧ (nested 15).sp + ([0x200] : List Addr12).length ≤ 16 ∧
    List.replicate 16 (0x200 : Addr12) ≠ [] ∧
    State.reset.sp + (List.replicate 16 (0x200 : Addr12)).length ≤ 16 := by decide

/-- AddSetsTheCarry, SubtractsSetNotBorrow, ShiftsWorkInPlace: a destination that is not VF. -/
theorem witness_notVF : (0xE : RegIndex) ≠ 0xF := by decide

/-- RandomTakesOneByteUnderTheMask: a supplied byte, none supplied, a bit outside the mask. -/
theorem witness_random : ({ State.reset with rndInputs := [0xA5] } : State).rndInputs = 0xA5 :: [] ∧
    State.reset.rndInputs = [] ∧ (0x0F : Byte).getLsbD 4 = false := by decide

/-- The three statements about `draw`: a sprite of 15 rows, a blank display, a sprite of zero bytes. -/
theorem witness_draw : (List.replicate 15 (0xFF : Byte)).length ≤ 15 ∧
    (∀ row col, Framebuffer.blank.pixel row col = false) ∧ (∀ b ∈ ([0, 0] : List Byte), b = 0) := by
  refine ⟨by decide, fun row col => ?_, by decide⟩
  simp [Framebuffer.blank, Framebuffer.pixel]

/-- DrwDrawsTheSpriteAtI: height 0 with `I` out of memory, and a sprite that ends at 4095. -/
theorem witness_drw_range : ((0 : Nibble) = 0 ∨ ({ State.reset with I := 0xFFFF } : State).I.toNat + (0 : Nibble).toNat ≤ 4096) ∧
    ({ State.reset with I := 0xFFF } : State).I.toNat + (1 : Nibble).toNat ≤ 4096 := by decide

/-- DrwDrawsTheSpriteAtI: a pixel that goes from set to unset (that VF is then 1 is `test_drw_collision`). -/
theorem witness_drw_cleared : onePixel.fb.pixel 0 0 = true ∧
    after (exec (.drw 0 1 1) { onePixel with I := 0x300, mem := [(0x300, 0x80)] }) (fun t => !t.fb.pixel 0 0) = true := by
  decide

/-- DrwDrawsTheSpriteAtI: with height 0 every set pixel stays set. -/
theorem witness_drw_kept : ∃ t, exec (.drw 0 1 0) onePixel = .next t ∧
    ∀ row col, onePixel.fb.pixel row col = true → t.fb.pixel row col = true :=
  ⟨_, rfl, fun _ _ h => h⟩

/-- LowestFreshPressEndsTheWait, first clause: key 0, and key 15 alone. -/
theorem witness_wait_hit : (waiting 0x0001 0x0001).schedule = [] ∧ (waiting 0x0001 0x0001).mode = .waitingForKey 2 ∧
    (waiting 0x0001 0x0001).keys.getLsbD 0 = true ∧ (waiting 0x0001 0x0001).keyArmed.getLsbD 0 = true ∧
    (waiting 0x8000 0xFFFF).keys.getLsbD 15 = true ∧ (waiting 0x8000 0xFFFF).keyArmed.getLsbD 15 = true ∧
    (∀ j, j < 15 → (waiting 0x8000 0xFFFF).keys.getLsbD j = false ∨ (waiting 0x8000 0xFFFF).keyArmed.getLsbD j = false) := by
  decide

/-- LowestFreshPressEndsTheWait, second clause: keys held, none of them armed. -/
theorem witness_wait_miss : (waiting 0x8001 0x7FFE).mode = .waitingForKey 2 ∧
    (∀ k, k < 16 → (waiting 0x8001 0x7FFE).keys.getLsbD k = false ∨ (waiting 0x8001 0x7FFE).keyArmed.getLsbD k = false) := by
  decide

/-- HeldKeysNeverEndTheWait, with keys held as the wait opens. -/
theorem witness_heldKeys : ∃ t, ({ State.reset with keys := 0x8001 } : State).schedule = [] ∧
    exec (.ldVxK 2) { State.reset with keys := 0x8001 } = .next t := ⟨_, rfl, rfl⟩

/-- StoreDecimalDigits, and DrawAndDigitsOutOfMemoryHalt for LD B: 4093 under the first alone, 4094 under the second. -/
theorem witness_digits : ({ State.reset with I := 4093 } : State).I.toNat ≤ 4093 ∧
    4093 < ({ State.reset with I := 4094 } : State).I.toNat := by decide

/-- StoreRegistersAtI and LoadRegistersFromI: the last byte at 4095 and at 4096. -/
theorem witness_transfers : ({ State.reset with I := 0xFF0 } : State).I.toNat + (0xF : RegIndex).toNat ≤ 4095 ∧
    4095 < ({ State.reset with I := 0xFF1 } : State).I.toNat + (0xF : RegIndex).toNat := by decide

/-- DrawAndDigitsOutOfMemoryHalt for DRW: the last sprite byte at 4096. -/
theorem witness_drw_bounds : (2 : Nibble) ≠ 0 ∧
    4095 < ({ State.reset with I := 0xFFF } : State).I.toNat + (2 : Nibble).toNat - 1 := by decide

/-- StoredBytesAreFetchedNext: LD [I], V1 at 0x200 over the word at 0x202. -/
theorem witness_selfModifying : ∃ s t : State, s.schedule = [] ∧ s.mode = .running ∧ s.I.toNat + (1 : RegIndex).toNat ≤ 4095 ∧
    exec (.storeRegs 1) s = .next t ∧ t.pc.toNat % 2 = 0 ∧ t.pc.toNat = s.I.toNat + (0 : RegIndex).toNat ∧
    decodeWord (BitVec.ofNat 16 ((s.reg 0).toNat * 256 + (s.reg 1).toNat)) = .instr (.ldImm 0 1) :=
  ⟨{ (State.reset.setReg 0 0x60).setReg 1 0x01 with I := 0x202 }, _, rfl, rfl, by decide, rfl, by decide, by decide, by decide⟩

/-- FaultsChangeOnlyTheMode. -/
theorem witness_fault : ∃ t, State.reset.schedule = [] ∧ State.reset.mode = .running ∧ step State.reset = .next t ∧
    t.mode = .halted record := ⟨_, rfl, rfl, rfl, by decide⟩

/-- HaltedIsTerminal, with events of every other kind to come. -/
theorem witness_halted : ({ halted with schedule := [.step, .tick, .setKey 3 true, .stepOnce, .resume] } : State).mode =
      .halted record ∧
    (∀ image, Event.reset image ∉ [Event.step, .tick, .setKey 3 true, .stepOnce, .resume]) :=
  ⟨rfl, by simp⟩

/-- OnlyItsInstructionsWriteEachPiece: each piece is changed by one of the instructions named. -/
theorem witness_writers : after (exec (.ldDTVx 1) (regs12 7 0)) (fun t => t.DT != (regs12 7 0).DT) = true ∧
    after (exec (.ldSTVx 1) (regs12 7 0)) (fun t => t.ST != (regs12 7 0).ST) = true ∧
    after (exec .cls onePixel) (fun t => t.fb.pixel 0 0 != onePixel.fb.pixel 0 0) = true ∧
    after (exec .ret (nested 1)) (fun t => t.stack != (nested 1).stack) = true ∧
    after (exec (.storeRegs 1) (regs12 7 0)) (fun t => t.mem != (regs12 7 0).mem) = true ∧
    after (exec (.ldI 7) State.reset) (fun t => t.I != State.reset.I) = true ∧
    after (exec (.ldVxK 1) State.reset) (fun t => t.keyArmed != State.reset.keyArmed) = true ∧
    after (exec (.rnd 1 0) State.reset) (fun t => t.rndDrawn != State.reset.rndDrawn) = true := by decide

/-- OnlySixInstructionsWriteTheFlag, both clauses. -/
theorem witness_flagWriters : ∃ t, exec (.addReg 1 2) (regs12 0xFF 1) = .next t ∧
    isDestination 3 (.addReg 1 2) = false ∧ ¬ ((3 : RegIndex) = 0xF ∧ writesFlag (.addReg 1 2) = true) ∧
    writesFlag (.addReg 1 2) = true ∧ (regs12 0xFF 1).mode = .running ∧ t.mode = .running :=
  ⟨_, rfl, by decide, by decide, by decide, rfl, rfl⟩

/-- SoundTimerAndLatchAreInvisible, all four clauses. -/
theorem witness_invisible : (∃ t, exec .cls State.reset = .next t) ∧ (∀ x, Instr.cls ≠ .ldSTVx x) ∧
    (∀ x, Instr.cls ≠ .ldVxK x) ∧ (∃ t, exec (.ldSTVx 1) State.reset = .next t) ∧
    (∃ t, exec (.ldVxK 1) State.reset = .next t) :=
  ⟨⟨_, rfl⟩, by simp, by simp, ⟨_, rfl⟩, ⟨_, rfl⟩⟩

/-- EventsWriteOnlyTheirState: each event answers a next state. -/
theorem witness_events : ∃ t, runEvent .tick paused = .next t ∧ (∃ u, runEvent (.setKey 15 true) paused = .next u) ∧
    (∃ u, runEvent (.pause .request) State.reset = .next u) ∧ (∃ u, runEvent .resume paused = .next u) ∧
    (∃ u, runEvent (.writeRegister 15 1) paused = .next u) ∧ (∃ u, runEvent (.writeMemory 4095 1) paused = .next u) :=
  ⟨_, rfl, ⟨_, rfl⟩, ⟨_, rfl⟩, ⟨_, rfl⟩, ⟨_, rfl⟩, ⟨_, rfl⟩⟩

/-- TicksCountBothTimersDown, with fewer and with more ticks than the timers hold. -/
theorem witness_ticks : ({ State.reset with DT := 2, ST := 0xFF, schedule := List.replicate 3 .tick } : State).schedule =
    List.replicate 3 .tick := rfl

/-- ResumeRestoresWhatPauseSaved, StepOnceRunsOneStep and DebuggerWritesOnlyWhilePaused: each mode the clauses name. -/
theorem witness_modes : State.reset.mode = .running ∧ (∃ x, (waiting 0 0).mode = .waitingForKey x) ∧
    (∃ label prior, paused.mode = .paused label prior) ∧ (∃ r, halted.mode = .halted r) ∧
    (∀ label prior, State.reset.mode ≠ .paused label prior) ∧ (∀ label prior, halted.mode ≠ .paused label prior) :=
  ⟨rfl, ⟨_, rfl⟩, ⟨_, _, rfl⟩, ⟨_, rfl⟩, by simp [State.reset], by simp [halted]⟩

/-- StepOnceRunsOneStep from Running: the one step can halt, keep running, or open a key wait. -/
theorem witness_stepOnce_running : paused.mode = .paused .request .running ∧
    after (step { paused with mode := .running, schedule := [] }) (fun t => t.mode == .halted record) = true ∧
    after (step (placed 0x200 0x200 [0x60, 0x01])) (fun t => t.mode == .running) = true ∧
    after (step (placed 0x200 0x200 [0xF2, 0x0A])) (fun t => t.mode == .waitingForKey 2) = true := by decide

/-- StepOnceRunsOneStep from a key wait: the check can end the wait or not. -/
theorem witness_stepOnce_waiting : ({ waiting 1 1 with mode := .paused .request (.waitingForKey 2) } : State).mode =
      .paused .request (.waitingForKey 2) ∧
    after (step (waiting 1 1)) (fun t => t.mode == .running) = true ∧
    after (step (waiting 1 0)) (fun t => t.mode == .waitingForKey 2) = true := by decide

/-- DebuggerWritesOnlyWhilePaused: the last index and address in range, and the first out of it. -/
theorem witness_debugger_bounds : (0xF : RegIndex).toNat = 15 ∧ 15 < 16 ∧
    after (runEvent (.writeRegister 15 1) paused) (fun t => t.reg 0xF == 1) = true ∧
    after (runEvent (.writeMemory 4095 1) paused) (fun t => t.mem == [(4095, 1)]) = true ∧
    after (runEvent (.writeRegister 16 1) paused) (fun t => t.V == paused.V) = true := by decide

/-- OversizedImageIsALoadFault and ResetLeavesTheResetState: an image of 3584 bytes, and one of 3585. -/
theorem witness_images : (List.replicate 3584 (0xFF : Byte)).length ≤ 3584 ∧
    3584 < (List.replicate 3585 (0xFF : Byte)).length := by
  simp only [List.length_replicate]; omega

/-- ResetLeavesTheResetState: an address of each zero range, at its ends, with an image of two bytes. -/
theorem witness_zeroAddresses : (0x04F < 0x050) ∧ (0x09F < 0x0A0 ∧ 0x1FF < 0x200) ∧
    0x200 + ([0x12, 0x00] : List Byte).length ≤ 0x202 ∧ 0x202 < 4096 ∧ 0xFFF < 4096 := by decide

/-- A halted state with a byte stored, a live return address and a tick to come. -/
def busy : State := { halted with mem := [(0x300, 1)], stack := [0x1000], DT := 5, schedule := [.tick] }

/-- EveryStepKeepsTheInvariant: the state `busy` has the invariant, and a step of it answers a next state. -/
theorem witness_invariant : busy.Inv ∧ after (step busy) (fun t => t.DT == 4) = true := by
  refine ⟨⟨by decide, by decide, fun ra h => ?_, by decide, fun _ => rfl, by decide, fun r h => ?_⟩, by decide⟩
  · obtain rfl := List.mem_singleton.mp h
    exact ⟨rfl, Nat.le_refl _⟩
  · cases h
    exact ⟨⟨rfl, 0x0000, rfl, by decide⟩, rfl⟩

end Sys2Proof.Tests
end

section
/-! Proofs of the control family (spec 41_control.md): CLS, RET and JP (R80 to R82). -/

namespace Sys2Proof.Machine

/-! ### The meanings, one equation per case -/

theorem exec_cls (s : State) : exec .cls s = .next { s with fb := Framebuffer.blank }.advance := rfl

theorem exec_jp (nnn : Addr12) (s : State) : exec (.jp nnn) s = .next (s.jump (zextAddr nnn)) := rfl

/-- RET on an empty stack is StackUnderflow (R81). -/
theorem exec_ret_empty {s : State} (h : s.stack = []) : exec .ret s = .next (s.raiseIn .ret .stackUnderflow) := by
  simp [exec, execRet, h]

/-- RET with a live entry pops the newest one into `pc` (R81). -/
theorem exec_ret_live {s : State} {ra : Word} {rest : List Word} (h : s.stack = ra :: rest) :
    exec .ret s = .next ({ s with stack := rest }.jump ra) := by
  simp [exec, execRet, h]

/-! ### The call stack (R15): `s` holds the entries of `t`, and `ra` as one newer entry -/

section PushedEntry

variable {s t : State} {ra : Word} (h : s.stack = ra :: t.stack)
include h

theorem State.sp_of_pushed : s.sp = t.sp + 1 := by
  simp [State.sp, h]

theorem State.stackEntry_newest : s.stackEntry t.sp = some ra := by
  simp [State.stackEntry, State.sp, h]

theorem State.stackEntry_older {k : Nat} (hk : k < t.sp) : s.stackEntry k = t.stackEntry k := by
  have hk' : k < t.stack.reverse.length := by simpa [State.sp] using hk
  simp only [State.stackEntry, h, List.reverse_cons, List.getElem?_append_left hk']

end PushedEntry

/-! ### Frames -/

/-- Replacing the display changes pixels alone (R17). -/
theorem UnchangedBut.setFb (s : State) (fb : Framebuffer) : UnchangedBut Part.isPixel s { s with fb := fb } := by
  intro p hp
  cases p with
  | pixel row col => exact absurd trivial hp
  | random => exact ⟨rfl, rfl⟩
  | reg | index | pc | delay | sound | stack | byte | keys | armed | mode | schedule => rfl

/-- Replacing the call stack changes the stack alone (R15). -/
theorem UnchangedBut.setStack (s : State) (entries : List Word) :
    UnchangedBut (fun p => p = .stack) s { s with stack := entries } := by
  intro p hp
  cases p with
  | stack => exact absurd rfl hp
  | random => exact ⟨rfl, rfl⟩
  | reg | index | pc | delay | sound | byte | pixel | keys | armed | mode | schedule => rfl

/-! ### The obligations -/

/-- Settles O9: CLS writes the blank display, then `pc`. -/
theorem clsBlanksTheDisplay : Obligations.ClsBlanksTheDisplay := by
  intro s
  refine ⟨_, exec_cls s, fun row col => ?_, rfl, ?_⟩
  · simp
  · exact ((UnchangedBut.setFb s _).mono fun _ => Or.inl).trans ((UnchangedBut.setPc _ _).mono fun _ => Or.inr)

/-- Settles O10, by whether the stack is empty or has a newest entry. -/
theorem returnPopsTheNewestAddress : Obligations.ReturnPopsTheNewestAddress := by
  intro s
  constructor
  · intro hsp
    rw [exec_ret_empty (List.length_eq_zero_iff.mp hsp), State.raiseIn_eq]
    rfl
  · intro hsp
    obtain ⟨ra, rest, hs⟩ := List.exists_cons_of_length_pos hsp
    refine ⟨_, exec_ret_live hs, ?_, State.stackEntry_newest hs, fun k hk => (State.stackEntry_older hs hk).symm, ?_⟩
    · exact Nat.eq_sub_of_add_eq (State.sp_of_pushed hs).symm
    · exact ((UnchangedBut.setStack s rest).mono fun _ => Or.inl).trans
        ((UnchangedBut.setPc _ ra).mono fun _ => Or.inr)

/-- Settles O11: `pc` is all that JP writes, so a jump to where `pc` already is writes nothing new. -/
theorem jumpSetsThePc : Obligations.JumpSetsThePc := by
  intro s nnn
  refine ⟨⟨_, exec_jp nnn s, toNat_zextAddr nnn, UnchangedBut.setPc s _⟩, fun hpc => ?_⟩
  have hself : zextAddr nnn = s.pc := BitVec.eq_of_toNat_eq (by rw [toNat_zextAddr, hpc])
  rw [exec_jp, hself]
  rfl

end Sys2Proof.Machine
end

section
/-! Proofs of the compare-and-skip family (spec 42_skip.md): SE and SNE (R90 to R93). -/

namespace Sys2Proof.Machine

/-! ### The meanings: the operation `skipIf` with the instruction's own condition -/

theorem exec_seImm (x : RegIndex) (kk : Byte) (s : State) :
    exec (.seImm x kk) s = .next (s.skipIf (s.reg x == kk)) := rfl

theorem exec_sneImm (x : RegIndex) (kk : Byte) (s : State) :
    exec (.sneImm x kk) s = .next (s.skipIf (s.reg x != kk)) := rfl

theorem exec_seReg (x y : RegIndex) (s : State) :
    exec (.seReg x y) s = .next (s.skipIf (s.reg x == s.reg y)) := rfl

theorem exec_sneReg (x y : RegIndex) (s : State) :
    exec (.sneReg x y) s = .next (s.skipIf (s.reg x != s.reg y)) := rfl

/-! ### What a skip does -/

/-- The two cases of `skipIf` as one distance added to `pc` (R13). -/
theorem State.skipIf_pc_distance (s : State) (c : Bool) : (s.skipIf c).pc = s.pc + (if c then 4 else 2) := by
  cases c with
  | false => rfl
  | true => rfl

/-- A skip moves `pc` and nothing else. -/
theorem UnchangedBut.skipIf (s : State) (c : Bool) : UnchangedBut (fun p => p = .pc) s (s.skipIf c) :=
  UnchangedBut.setPc s _

/-- An instruction that means `skipIf c` moves `pc` by the distance `c` chooses, and changes nothing else. -/
theorem next_skipIf_spec {r : Result} {s : State} {c : Bool} {distance : Word} (hr : r = .next (s.skipIf c))
    (hd : (if c then 4 else 2) = distance) :
    ∃ t, r = .next t ∧ t.pc = s.pc + distance ∧ UnchangedBut (fun p => p = .pc) s t :=
  ⟨s.skipIf c, hr, hd ▸ s.skipIf_pc_distance c, UnchangedBut.skipIf s c⟩

/-! ### The distance each comparison chooses, by the bytes as numbers -/

theorem distance_beq (a b : Byte) : (if a == b then 4 else 2 : Word) = if a.toNat = b.toNat then 4 else 2 := by
  simp only [beq_iff_eq, BitVec.toNat_inj]

theorem distance_bne (a b : Byte) : (if a != b then 4 else 2 : Word) = if a.toNat = b.toNat then 2 else 4 := by
  simp only [bne_iff_ne, BitVec.toNat_inj, ite_not]

/-! ### The obligation -/

/-- Settles O15: each of the four is `skipIf`, with equality (SE) or inequality (SNE) as its condition. -/
theorem compareSkipsAdvanceByFourOrTwo : Obligations.CompareSkipsAdvanceByFourOrTwo := by
  intro s x y kk
  refine ⟨?seImm, ?sneImm, ?seReg, ?sneReg⟩
  case seImm => exact next_skipIf_spec (exec_seImm x kk s) (distance_beq _ _)
  case sneImm => exact next_skipIf_spec (exec_sneImm x kk s) (distance_bne _ _)
  case seReg => exact next_skipIf_spec (exec_seReg x y s) (distance_beq _ _)
  case sneReg => exact next_skipIf_spec (exec_sneReg x y s) (distance_bne _ _)

end Sys2Proof.Machine
end

section
/-! Proofs of the move family (spec 43_move.md): LD into a register, into `I` and into a timer (R95 to R100). -/

namespace Sys2Proof.Machine

/-! ### The meanings: one write, then `advance` -/

theorem exec_ldImm (x : RegIndex) (kk : Byte) (s : State) : exec (.ldImm x kk) s = .next (s.setReg x kk).advance := rfl

theorem exec_ldReg (x y : RegIndex) (s : State) : exec (.ldReg x y) s = .next (s.setReg x (s.reg y)).advance := rfl

theorem exec_ldVxDT (x : RegIndex) (s : State) : exec (.ldVxDT x) s = .next (s.setReg x s.DT).advance := rfl

theorem exec_ldI (nnn : Addr12) (s : State) : exec (.ldI nnn) s = .next { s with I := zextAddr nnn }.advance := rfl

theorem exec_ldDTVx (x : RegIndex) (s : State) : exec (.ldDTVx x) s = .next { s with DT := s.reg x }.advance := rfl

theorem exec_ldSTVx (x : RegIndex) (s : State) : exec (.ldSTVx x) s = .next { s with ST := s.reg x }.advance := rfl

/-! ### Frames -/

/-- Replacing `I` changes `I` alone (R12). -/
theorem UnchangedBut.setIndex (s : State) (a : Word) : UnchangedBut (fun p => p = .index) s { s with I := a } := by
  intro p hp
  cases p with
  | index => exact absurd rfl hp
  | random => exact ⟨rfl, rfl⟩
  | reg | pc | delay | sound | stack | byte | pixel | keys | armed | mode | schedule => rfl

/-- Replacing DT changes the delay timer alone (R14). -/
theorem UnchangedBut.setDelay (s : State) (v : Byte) : UnchangedBut (fun p => p = .delay) s { s with DT := v } := by
  intro p hp
  cases p with
  | delay => exact absurd rfl hp
  | random => exact ⟨rfl, rfl⟩
  | reg | index | pc | sound | stack | byte | pixel | keys | armed | mode | schedule => rfl

/-- Replacing ST changes the sound timer alone (R14). -/
theorem UnchangedBut.setSound (s : State) (v : Byte) : UnchangedBut (fun p => p = .sound) s { s with ST := v } := by
  intro p hp
  cases p with
  | sound => exact absurd rfl hp
  | random => exact ⟨rfl, rfl⟩
  | reg | index | pc | delay | stack | byte | pixel | keys | armed | mode | schedule => rfl

/-- An `advance` after a change adds `pc` to what the change may touch. -/
theorem UnchangedBut.thenAdvance {may : Part → Prop} {s t : State} (h : UnchangedBut may s t) :
    UnchangedBut (fun p => may p ∨ p = .pc) s t.advance :=
  (h.mono fun _ => Or.inl).trans ((UnchangedBut.setPc t _).mono fun _ => Or.inr)

/-! ### What a register write followed by `advance` does, and when the sound is on -/

/-- An instruction that writes `v` to Vx and advances changes Vx and `pc`, and nothing else. -/
theorem next_setReg_advance_spec {r : Result} {s : State} {x : RegIndex} {v : Byte}
    (hr : r = .next (s.setReg x v).advance) :
    ∃ t, r = .next t ∧ t.reg x = v ∧ t.pc = s.pc + 2 ∧ UnchangedBut (fun p => p = .reg x ∨ p = .pc) s t :=
  ⟨_, hr, s.reg_setReg_same x v, rfl, (UnchangedBut.setReg s x v).thenAdvance⟩

/-- `sound_active` is ST being non-zero (R168). -/
theorem State.soundActive_iff (s : State) : s.soundActive = true ↔ s.ST.toNat ≠ 0 :=
  bne_iff_ne.trans (not_congr BitVec.toNat_inj.symm)

/-! ### The obligations -/

/-- Settles O17: each of the three is one register write and `advance`, with its own value written. -/
theorem movesWriteTheRegister : Obligations.MovesWriteTheRegister := by
  intro s x y kk
  refine ⟨?ldImm, ?ldReg, ?ldVxDT⟩
  case ldImm => exact next_setReg_advance_spec (exec_ldImm x kk s)
  case ldReg => exact next_setReg_advance_spec (exec_ldReg x y s)
  case ldVxDT => exact next_setReg_advance_spec (exec_ldVxDT x s)

/-- Settles O18: the zero-extended address keeps its value in 16 bits. -/
theorem loadIndexSetsTheAddress : Obligations.LoadIndexSetsTheAddress := fun s nnn =>
  ⟨_, exec_ldI nnn s, toNat_zextAddr nnn, rfl, (UnchangedBut.setIndex s _).thenAdvance⟩

/-- Settles O20: each timer move writes one timer, and `sound_active` reads the ST just written. -/
theorem timerMovesWriteTheTimer : Obligations.TimerMovesWriteTheTimer := by
  intro s x
  refine ⟨?ldDTVx, ?ldSTVx⟩
  case ldDTVx => exact ⟨_, exec_ldDTVx x s, rfl, rfl, (UnchangedBut.setDelay s _).thenAdvance⟩
  case ldSTVx =>
    exact ⟨_, exec_ldSTVx x s, rfl, State.soundActive_iff _, rfl, (UnchangedBut.setSound s _).thenAdvance⟩

end Sys2Proof.Machine
end

section
/-! Proofs of the arithmetic family (spec 44_arith.md): ADD with carry (R109). -/

namespace Sys2Proof.Machine

/-! ### The meaning: the operation `writeWithFlag` with the sum and its carry -/

theorem exec_addReg (x y : RegIndex) (s : State) : exec (.addReg x y) s =
    .next (s.writeWithFlag x (addMod (s.reg x) (s.reg y)) (carry (s.reg x) (s.reg y))) := rfl

/-! ### What a write with a flag does (R115) -/

/-- An instruction that means `writeWithFlag x result flag` leaves the result in Vx unless x = F, the flag in VF for
every x because it is written last, and changes `pc` and nothing else beside them. -/
theorem next_writeWithFlag_spec {r : Result} {s : State} {x : RegIndex} {result : Byte} {flag : Bool}
    (hr : r = .next (s.writeWithFlag x result flag)) :
    ∃ t, r = .next t ∧ (x ≠ 0xF → t.reg x = result) ∧ t.reg 0xF = flagByte flag ∧ t.pc = s.pc + 2 ∧
      UnchangedBut (fun p => p = .reg x ∨ p = .reg 0xF ∨ p = .pc) s t :=
  ⟨_, hr, s.writeWithFlag_result x result flag, s.writeWithFlag_flag x result flag, rfl,
    UnchangedBut.writeWithFlag s x result flag⟩

/-- The carry as VF holds it, by the true sum of the two bytes (R109). -/
theorem toNat_flagByte_carry (a b : Byte) :
    (flagByte (carry a b)).toNat = if a.toNat + b.toNat > 255 then 1 else 0 := by
  simp only [toNat_flagByte, carry_iff]

/-! ### The obligation -/

/-- Settles O23: ADD is `writeWithFlag` of the sum modulo 256 and the carry, both taken from the old values. -/
theorem addSetsTheCarry : Obligations.AddSetsTheCarry := by
  intro s x y
  obtain ⟨t, ht, hresult, hflag, hpc, hframe⟩ := next_writeWithFlag_spec (exec_addReg x y s)
  refine ⟨t, ht, fun hx => ?sum, ?carry, hpc, hframe⟩
  case sum => rw [hresult hx, toNat_addMod]
  case carry => rw [hflag, toNat_flagByte_carry]

end Sys2Proof.Machine
end

section
/-! Proofs of the display family (spec 46_display.md): what `draw` does to each pixel and when it collides (R124). -/

namespace Sys2Proof.Machine

/-! ### Drawings that flip a set of pixels -/

/-- From `d` to `e` exactly the pixels in `covered` flipped, and `e` collided if `d` had or if one of them was set in
`d` (R124): what each part of `draw` does, with its own `covered`. -/
structure Drawing.Flips (covered : Fin 32 → Fin 64 → Prop) (d e : Drawing) : Prop where
  pixel : ∀ row col, FlippedIf (covered row col) (d.fb.pixel row col) (e.fb.pixel row col)
  collided : e.collided = true ↔ d.collided = true ∨ ∃ row col, d.fb.pixel row col = true ∧ covered row col

theorem flippedIf_false (a : Bool) : FlippedIf False a a := by
  simp [FlippedIf]

/-- A pixel that is not covered keeps its value. -/
theorem FlippedIf.eq_true_iff {p : Prop} {a b : Bool} (h : FlippedIf p a b) (hp : ¬ p) : b = true ↔ a = true := by
  simpa [FlippedIf, hp] using h

/-- Two covers that do not overlap flip a pixel as their union does. -/
theorem FlippedIf.trans {p q : Prop} {a b c : Bool} (hab : FlippedIf p a b) (hbc : FlippedIf q b c)
    (hdisj : p → ¬ q) : FlippedIf (p ∨ q) a c := by
  by_cases hp : p
  · simp_all [FlippedIf]
  · have hb : b = a := Bool.eq_iff_iff.mpr (hab.eq_true_iff hp)
    simpa only [hb, hp, false_or] using hbc

theorem Drawing.Flips.refl (d : Drawing) : Drawing.Flips (fun _ _ => False) d d where
  pixel _ _ := flippedIf_false _
  collided := by simp

theorem Drawing.Flips.congr {S T : Fin 32 → Fin 64 → Prop} {d e : Drawing} (h : Drawing.Flips S d e)
    (hST : ∀ row col, S row col ↔ T row col) : Drawing.Flips T d e := by
  have : S = T := funext fun row => funext fun col => propext (hST row col)
  rwa [← this]

/-- Two parts of a draw that cover no common pixel: the second collides on pixels that the first left as they were. -/
theorem Drawing.Flips.trans {S T : Fin 32 → Fin 64 → Prop} {d e f : Drawing} (hde : Drawing.Flips S d e)
    (hef : Drawing.Flips T e f) (hdisj : ∀ row col, S row col → ¬ T row col) :
    Drawing.Flips (fun row col => S row col ∨ T row col) d f where
  pixel row col := (hde.pixel row col).trans (hef.pixel row col) (hdisj row col)
  collided := by
    have hkept : ∀ row col, (e.fb.pixel row col = true ∧ T row col ↔ d.fb.pixel row col = true ∧ T row col) :=
      fun row col => and_congr_left fun hT => (hde.pixel row col).eq_true_iff fun hS => hdisj row col hS hT
    simp only [hef.collided, hde.collided, hkept, and_or_left, exists_or, or_assoc]

/-! ### The pixels covered by one sprite bit, by one sprite row and by the sprite -/

/-- The pixels that the set bits in the first `k` columns of a sprite row land on (R123). -/
def RowCovers (x0 : Nat) (line : Fin 32) (b : Byte) (k : Nat) (row : Fin 32) (col : Fin 64) : Prop :=
  row = line ∧ ∃ c, c < k ∧ spriteBit b c = true ∧ col = pixelCol x0 c

theorem Drawing.plot_flips (d : Drawing) (r : Fin 32) (c : Fin 64) (bit : Bool) :
    Drawing.Flips (fun row col => bit = true ∧ row = r ∧ col = c) d (d.plot r c bit) where
  pixel row col := by
    rw [Drawing.pixel_plot]
    split
    next hit => obtain ⟨rfl, rfl, rfl⟩ := hit; simp [FlippedIf]
    next miss => simpa only [miss] using flippedIf_false _
  collided := by
    rw [Drawing.collided_plot]
    simp [and_comm]

/-- One more column covers one more pixel, if its bit is set. -/
theorem rowCovers_succ (x0 : Nat) (line : Fin 32) (b : Byte) (k : Nat) (row : Fin 32) (col : Fin 64) :
    RowCovers x0 line b k row col ∨ (spriteBit b k = true ∧ row = line ∧ col = pixelCol x0 k) ↔
      RowCovers x0 line b (k + 1) row col := by
  simp only [RowCovers, Nat.lt_succ_iff_lt_or_eq, or_and_right, exists_or, exists_eq_left, and_or_left,
    and_left_comm (a := row = line)]

/-- The eight columns of a sprite row land on different pixels, because the display is 64 wide. -/
theorem pixelCol_ne (x0 : Nat) {c k : Nat} (hc : c < k) (hk : k < 64) : pixelCol x0 c ≠ pixelCol x0 k := by
  intro h
  have : (x0 + c) % 64 = (x0 + k) % 64 := congrArg Fin.val h
  omega

/-- The first `k` columns of a sprite row, by induction on `k` (R124's inner loop). -/
theorem Drawing.columns_flip (d : Drawing) (x0 : Nat) (line : Fin 32) (b : Byte) {k : Nat} (hk : k ≤ 64) :
    Drawing.Flips (RowCovers x0 line b k) d
      ((List.range k).foldl (fun d c => d.plot line (pixelCol x0 c) (spriteBit b c)) d) := by
  induction k with
  | zero => exact (Drawing.Flips.refl d).congr (by simp [RowCovers])
  | succ k ih =>
    rw [List.range_succ, List.foldl_append]
    refine ((ih (by omega)).trans (Drawing.plot_flips _ line (pixelCol x0 k) (spriteBit b k)) ?_).congr
      (rowCovers_succ x0 line b k)
    rintro row col ⟨-, c, hc, -, hcol⟩ ⟨-, -, hcol'⟩
    exact pixelCol_ne x0 hc hk (hcol.symm.trans hcol')

theorem Drawing.row_flips (d : Drawing) (x0 : Nat) (line : Fin 32) (b : Byte) :
    Drawing.Flips (RowCovers x0 line b 8) d (d.row x0 line b) :=
  d.columns_flip x0 line b (by decide)

/-- The first row of a sprite at `y0`, with its pixels as numbers. -/
theorem rowCovers_iff (x0 y0 : Nat) (b : Byte) (row : Fin 32) (col : Fin 64) :
    RowCovers x0 (pixelRow y0 0) b 8 row col ↔
      ∃ c, c < 8 ∧ b.getLsbD (7 - c) = true ∧ row.val = y0 % 32 ∧ col.val = (x0 + c) % 64 := by
  simp only [RowCovers, pixelRow, pixelCol, spriteBit, Fin.ext_iff, Fin.ofNat_eq_cast, Fin.val_natCast]
  exact ⟨fun ⟨hrow, c, hc, hbit, hcol⟩ => ⟨c, hc, hbit, hrow, hcol⟩,
    fun ⟨c, hc, hbit, hrow, hcol⟩ => ⟨hrow, c, hc, hbit, hcol⟩⟩

/-- A sprite covers what its first row covers and what the others cover one row further down. -/
theorem spriteCovers_cons (x0 y0 : Nat) (b : Byte) (bs : List Byte) (row : Fin 32) (col : Fin 64) :
    RowCovers x0 (pixelRow y0 0) b 8 row col ∨
        SpriteCovers x0 (y0 + 1) bs.length (fun r => bs.getD r 0) row col ↔
      SpriteCovers x0 y0 (b :: bs).length (fun r => (b :: bs).getD r 0) row col := by
  rw [rowCovers_iff]
  constructor
  · rintro (⟨c, hc, hbit, hrow, hcol⟩ | ⟨r, c, hr, hc, hbit, hrow, hcol⟩)
    · exact ⟨0, c, Nat.succ_pos _, hc, hbit, hrow, hcol⟩
    · exact ⟨r + 1, c, Nat.succ_lt_succ hr, hc, hbit, by omega, hcol⟩
  · rintro ⟨r, c, hr, hc, hbit, hrow, hcol⟩
    cases r with
    | zero => exact .inl ⟨c, hc, hbit, hrow, hcol⟩
    | succ r => exact .inr ⟨r, c, Nat.lt_of_succ_lt_succ hr, hc, hbit, by omega, hcol⟩

/-- The first row of a sprite of at most 32 rows meets no other, because the display is 32 high. -/
theorem not_spriteCovers_of_rowCovers {x0 y0 n : Nat} {b : Byte} {bytes : Nat → Byte} {row : Fin 32} {col : Fin 64}
    (hn : n < 32) (h : RowCovers x0 (pixelRow y0 0) b 8 row col) : ¬ SpriteCovers x0 (y0 + 1) n bytes row col := by
  rintro ⟨r, c, hr, -, -, hrow, -⟩
  have : row.val = y0 % 32 := congrArg Fin.val h.1
  omega

/-- The sprite rows from row `r` on, by induction on the rows (R124's outer loop). -/
theorem Drawing.rows_flip (x0 y0 r : Nat) (sprite : List Byte) (d : Drawing) (hlen : sprite.length ≤ 32) :
    Drawing.Flips (SpriteCovers x0 (y0 + r) sprite.length (fun i => sprite.getD i 0)) d
      (Drawing.rows x0 y0 r sprite d) := by
  induction sprite generalizing r d with
  | nil => exact (Drawing.Flips.refl d).congr (by simp [SpriteCovers])
  | cons b bs ih =>
    rw [List.length_cons] at hlen
    exact ((d.row_flips x0 (pixelRow y0 r) b).trans (ih (r + 1) _ (by omega))
      fun _ _ => not_spriteCovers_of_rowCovers hlen).congr (spriteCovers_cons x0 (y0 + r) b bs)

/-! ### The obligation -/

/-- A draw of at most 32 rows flips the pixels its sprite covers. -/
theorem draw_flips (fb : Framebuffer) (x0 y0 : Nat) {sprite : List Byte} (hlen : sprite.length ≤ 32) :
    Drawing.Flips (SpriteCovers x0 y0 sprite.length (fun r => sprite.getD r 0)) ⟨fb, false⟩ (draw fb x0 y0 sprite) :=
  Drawing.rows_flip x0 y0 0 sprite ⟨fb, false⟩ hlen

/-- Settles O27: no two bits of a sprite this small land on one pixel, so the flips of its bits add up to one flip of
each covered pixel, and each collision is with a pixel still as it was before the draw. -/
theorem drawFlipsExactlyTheCoveredPixels : Obligations.DrawFlipsExactlyTheCoveredPixels := by
  intro fb x0 y0 sprite hlen
  obtain ⟨hpixel, hcollided⟩ := draw_flips fb x0 y0 (hlen.trans (by decide))
  exact ⟨hpixel, by simpa using hcollided⟩

end Sys2Proof.Machine
end

section
/-! Proofs of the memory family (spec 48_memory.md): LD [I], Vx and LD Vx, [I] (R146, R147). -/

namespace Sys2Proof.Machine

/-! ### The meanings, one equation per case of the range check -/

theorem exec_storeRegs_inside {s : State} {x : RegIndex} (h : s.I.toNat + x.toNat ≤ 4095) :
    exec (.storeRegs x) s = .next (s.storeAtI (s.firstRegs (x.toNat + 1))) :=
  congrArg _ (s.withRange_inside _ _ _ (.inr (by omega)))

theorem exec_storeRegs_outside {s : State} {x : RegIndex} (h : 4095 < s.I.toNat + x.toNat) :
    exec (.storeRegs x) s = .next (s.raiseBounds (.storeRegs x)) :=
  congrArg _ (s.withRange_outside _ _ _ (Nat.succ_ne_zero _) (by omega))

theorem exec_loadRegs_inside {s : State} {x : RegIndex} (h : s.I.toNat + x.toNat ≤ 4095) :
    exec (.loadRegs x) s = .next { s with V := loadInto s.mem s.I.toNat (x.toNat + 1) s.V }.advance :=
  congrArg _ (s.withRange_inside _ _ _ (.inr (by omega)))

theorem exec_loadRegs_outside {s : State} {x : RegIndex} (h : 4095 < s.I.toNat + x.toNat) :
    exec (.loadRegs x) s = .next (s.raiseBounds (.loadRegs x)) :=
  congrArg _ (s.withRange_outside _ _ _ (Nat.succ_ne_zero _) (by omega))

/-! ### The record of an out-of-range transfer -/

/-- The word of formats XK and X as a number (R51). -/
theorem formatXK_eq_ofNat (c : BitVec 4) (x : RegIndex) (kk : Byte) :
    formatXK c x kk = BitVec.ofNat 16 (4096 * c.toNat + 256 * x.toNat + kk.toNat) := by
  have hc := c.isLt
  have hx := x.isLt
  have hk := kk.isLt
  have hcx : (c ++ x).toNat = c.toNat <<< 4 ||| x.toNat := BitVec.toNat_append c x
  have h : (formatXK c x kk).toNat = (c ++ x).toNat <<< 8 ||| kk.toNat := BitVec.toNat_append (c ++ x) kk
  rw [← Nat.shiftLeft_add_eq_or_of_lt hx, Nat.shiftLeft_eq] at hcx
  rw [← Nat.shiftLeft_add_eq_or_of_lt hk, Nat.shiftLeft_eq, hcx] at h
  apply BitVec.eq_of_toNat_eq
  rw [h, BitVec.toNat_ofNat]
  omega

theorem encode_storeRegs (x : RegIndex) : encode (.storeRegs x) = BitVec.ofNat 16 (0xF055 + 256 * x.toNat) :=
  (formatXK_eq_ofNat 0xF x 0x55).trans (congrArg _ (Nat.add_right_comm 0xF000 _ 0x55))

theorem encode_loadRegs (x : RegIndex) : encode (.loadRegs x) = BitVec.ofNat 16 (0xF065 + 256 * x.toNat) :=
  (formatXK_eq_ofNat 0xF x 0x65).trans (congrArg _ (Nat.add_right_comm 0xF000 _ 0x65))

/-- MemoryOutOfBounds with the record written out: `pc`, the word and `max(I, 4096)` (R33, R150). -/
theorem State.raiseBounds_of_encode {i : Instr} {w : Word} (s : State) (hw : encode i = w) :
    s.raiseBounds i = { s with
      mode := .halted ⟨.memoryOutOfBounds, s.pc, some w, some (BitVec.ofNat 16 (max s.I.toNat 4096))⟩ } :=
  hw ▸ rfl

/-! ### Storing V0 to Vx -/

theorem length_firstRegs_upTo (s : State) (x : RegIndex) : (s.firstRegs (x.toNat + 1)).length = x.toNat + 1 :=
  length_firstRegs s _ x.isLt

/-- Byte `I + j` after the store is the j-th of the bytes stored, that is Vj (R146). -/
theorem read_storeAtI_firstRegs {s : State} {x j : RegIndex} (h : s.I.toNat + x.toNat ≤ 4095)
    (hj : j.toNat ≤ x.toNat) :
    (s.storeAtI (s.firstRegs (x.toNat + 1))).mem.read (s.I.toNat + j.toNat) = s.reg j := by
  have hlen := length_firstRegs_upTo s x
  have hfits : s.I.toNat + (s.firstRegs (x.toNat + 1)).length ≤ Config.memSize := by
    rw [hlen]; exact Nat.succ_le_succ h
  rw [State.storeAtI_mem, Memory.read_writeBytes_inside _ _ _ _ (by omega) hfits]
  exact getElem_firstRegs s _ _ _ j.isLt

/-- A store at `I` changes the bytes of its range and `pc`, and nothing else. -/
theorem UnchangedBut.storeAtI (s : State) (bs : List Byte) :
    UnchangedBut (fun p => p.inRange s.I.toNat bs.length ∨ p = .pc) s (s.storeAtI bs) :=
  (UnchangedBut.writeBytes s s.I.toNat bs).thenAdvance

/-! ### Loading V0 to Vx -/

/-- Replacing the register file by one that agrees above Vx changes at most V0 to Vx. -/
theorem UnchangedBut.setRegsUpTo (s : State) (x : RegIndex) (v : Vector Byte 16)
    (h : ∀ j : RegIndex, x.toNat < j.toNat → v[j.toNat]'j.isLt = s.reg j) :
    UnchangedBut (fun p => p.isRegUpTo x) s { s with V := v } := by
  intro p hp
  cases p with
  | reg j => exact h j (Nat.lt_of_not_le hp)
  | random => exact ⟨rfl, rfl⟩
  | index | pc | delay | sound | stack | byte | pixel | keys | armed | mode | schedule => rfl

/-- Register j after the load: byte `I + j` up to Vx, its old value above (R147). -/
theorem getElem_loadInto_upTo (s : State) (x j : RegIndex) :
    (loadInto s.mem s.I.toNat (x.toNat + 1) s.V)[j.toNat]'j.isLt =
      if j.toNat ≤ x.toNat then s.mem.read (s.I.toNat + j.toNat) else s.reg j := by
  rw [getElem_loadInto _ _ _ _ _ j.isLt]
  simp only [Nat.lt_succ_iff, State.reg]

/-! ### The obligations -/

/-- Settles O36, by whether the last byte `I + x` is in memory. -/
theorem storeRegistersAtI : Obligations.StoreRegistersAtI := by
  intro s x
  constructor
  · intro hin
    have hframe := UnchangedBut.storeAtI s (s.firstRegs (x.toNat + 1))
    rw [length_firstRegs_upTo] at hframe
    exact ⟨_, exec_storeRegs_inside hin, fun j hj => read_storeAtI_firstRegs hin hj, rfl, hframe⟩
  · intro hout
    rw [exec_storeRegs_outside hout, s.raiseBounds_of_encode (encode_storeRegs x)]

/-- Settles O37, by whether the last byte `I + x` is in memory. -/
theorem loadRegistersFromI : Obligations.LoadRegistersFromI := by
  intro s x
  constructor
  · intro hin
    have hloaded := getElem_loadInto_upTo s x
    refine ⟨_, exec_loadRegs_inside hin, fun j hj => ?loaded, rfl, (UnchangedBut.setRegsUpTo s x _ ?kept).thenAdvance⟩
    case loaded => exact (hloaded j).trans (if_pos hj)
    case kept => exact fun j hj => (hloaded j).trans (if_neg (Nat.not_le.mpr hj))
  · intro hout
    rw [exec_loadRegs_outside hout, s.raiseBounds_of_encode (encode_loadRegs x)]

end Sys2Proof.Machine
end

section
/-! Facts about the decoder (spec 30_encoding.md): a word that decodes is the encoding of its instruction (R64), an
encoding lies in its row of the table (R54), and so a word of no row is illegal (R59). -/

namespace Sys2Proof

/-! ### A word from the fields the decoder tests, given by their values (R52) -/

theorem formatA_of_class {w : Word} {c : BitVec 4} (hc : (opClass w).toNat = c.toNat) : formatA c (fieldNNN w) = w :=
  BitVec.eq_of_toNat_eq hc ▸ formatA_fields w

theorem formatXK_of_class {w : Word} {c : BitVec 4} (hc : (opClass w).toNat = c.toNat) :
    formatXK c (fieldX w) (fieldKK w) = w :=
  BitVec.eq_of_toNat_eq hc ▸ formatXK_fields w

theorem formatXK_of_class_byte {w : Word} {c : BitVec 4} {kk : Byte} (hc : (opClass w).toNat = c.toNat)
    (hkk : (fieldKK w).toNat = kk.toNat) : formatXK c (fieldX w) kk = w :=
  BitVec.eq_of_toNat_eq hkk ▸ formatXK_of_class hc

theorem formatXY_of_class {w : Word} {c : BitVec 4} (hc : (opClass w).toNat = c.toNat) :
    formatXY c (fieldX w) (fieldY w) (fieldN w) = w :=
  BitVec.eq_of_toNat_eq hc ▸ formatXY_fields w

theorem formatXY_of_class_nibble {w : Word} {c : BitVec 4} {n : Nibble} (hc : (opClass w).toNat = c.toNat)
    (hn : (fieldN w).toNat = n.toNat) : formatXY c (fieldX w) (fieldY w) n = w :=
  BitVec.eq_of_toNat_eq hn ▸ formatXY_of_class hc

/-! ### Encoding what was decoded (R64), class by class -/

theorem encode_of_decodeClass0 {w : Word} {i : Instr} (h : decodeClass0 w = .instr i) : encode i = w := by
  unfold decodeClass0 at h
  split at h
  next hw => cases h; exact hw.symm
  next =>
    split at h
    next hw => cases h; exact hw.symm
    next => cases h

/-- Every row of class 8 is format XY with its own function nibble. -/
theorem encode_of_decodeClass8 {w : Word} {i : Instr} (hc : (opClass w).toNat = 0x8)
    (h : decodeClass8 w = .instr i) : encode i = w := by
  unfold decodeClass8 at h
  split at h <;> rename_i hn <;> cases h
  all_goals exact formatXY_of_class_nibble hc hn

/-- Every row of class E is format X with its own function byte. -/
theorem encode_of_decodeClassE {w : Word} {i : Instr} (hc : (opClass w).toNat = 0xE)
    (h : decodeClassE w = .instr i) : encode i = w := by
  unfold decodeClassE at h
  split at h <;> rename_i hkk <;> cases h
  all_goals exact formatXK_of_class_byte hc hkk

/-- Every row of class F is format X with its own function byte. -/
theorem encode_of_decodeClassF {w : Word} {i : Instr} (hc : (opClass w).toNat = 0xF)
    (h : decodeClassF w = .instr i) : encode i = w := by
  unfold decodeClassF at h
  split at h <;> rename_i hkk <;> cases h
  all_goals exact formatXK_of_class_byte hc hkk

/-- The decoder keeps every field of the word that the instruction's format does not fix. -/
theorem encode_of_decodeWord {w : Word} {i : Instr} (h : decodeWord w = .instr i) : encode i = w := by
  unfold decodeWord at h
  split at h
  next => exact encode_of_decodeClass0 h
  next hc => cases h; exact formatA_of_class hc
  next hc => cases h; exact formatA_of_class hc
  next hc => cases h; exact formatXK_of_class hc
  next hc => cases h; exact formatXK_of_class hc
  next hc =>
    split at h <;> cases h
    next hn => exact formatXY_of_class_nibble hc (congrArg _ hn)
  next hc => cases h; exact formatXK_of_class hc
  next hc => cases h; exact formatXK_of_class hc
  next hc => exact encode_of_decodeClass8 hc h
  next hc =>
    split at h <;> cases h
    next hn => exact formatXY_of_class_nibble hc (congrArg _ hn)
  next hc => cases h; exact formatA_of_class hc
  next hc => cases h; exact formatA_of_class hc
  next hc => cases h; exact formatXK_of_class hc
  next hc => cases h; exact formatXY_of_class hc
  next hc => exact encode_of_decodeClassE hc h
  next =>
    have hlt : (opClass w).toNat < 16 := (opClass w).isLt
    have hc : (opClass w).toNat = 0xF := by
      simp only [imp_false] at *
      omega
    exact encode_of_decodeClassF hc h

/-! ### The table's rows (R54, R59) -/

/-- The family EncodesInRow as one statement. -/
theorem row_holds_encode : ∀ i : Instr, i.row.holds (encode i) = true
  | .cls => Laws.EncodesInRow.cls
  | .ret => Laws.EncodesInRow.ret
  | .jp nnn => Laws.EncodesInRow.jp nnn
  | .call nnn => Laws.EncodesInRow.call nnn
  | .seImm x kk => Laws.EncodesInRow.seImm x kk
  | .sneImm x kk => Laws.EncodesInRow.sneImm x kk
  | .seReg x y => Laws.EncodesInRow.seReg x y
  | .ldImm x kk => Laws.EncodesInRow.ldImm x kk
  | .addImm x kk => Laws.EncodesInRow.addImm x kk
  | .ldReg x y => Laws.EncodesInRow.ldReg x y
  | .orReg x y => Laws.EncodesInRow.orReg x y
  | .andReg x y => Laws.EncodesInRow.andReg x y
  | .xorReg x y => Laws.EncodesInRow.xorReg x y
  | .addReg x y => Laws.EncodesInRow.addReg x y
  | .subReg x y => Laws.EncodesInRow.subReg x y
  | .shr x y => Laws.EncodesInRow.shr x y
  | .subnReg x y => Laws.EncodesInRow.subnReg x y
  | .shl x y => Laws.EncodesInRow.shl x y
  | .sneReg x y => Laws.EncodesInRow.sneReg x y
  | .ldI nnn => Laws.EncodesInRow.ldI nnn
  | .jpV0 nnn => Laws.EncodesInRow.jpV0 nnn
  | .rnd x kk => Laws.EncodesInRow.rnd x kk
  | .drw x y n => Laws.EncodesInRow.drw x y n
  | .skp x => Laws.EncodesInRow.skp x
  | .sknp x => Laws.EncodesInRow.sknp x
  | .ldVxDT x => Laws.EncodesInRow.ldVxDT x
  | .ldVxK x => Laws.EncodesInRow.ldVxK x
  | .ldDTVx x => Laws.EncodesInRow.ldDTVx x
  | .ldSTVx x => Laws.EncodesInRow.ldSTVx x
  | .addI x => Laws.EncodesInRow.addI x
  | .ldF x => Laws.EncodesInRow.ldF x
  | .ldB x => Laws.EncodesInRow.ldB x
  | .storeRegs x => Laws.EncodesInRow.storeRegs x
  | .loadRegs x => Laws.EncodesInRow.loadRegs x

theorem row_mem_encodingTable (i : Instr) : i.row ∈ encodingTable := by
  cases i <;> simp [encodingTable, instrOfEveryRow, Instr.row]

theorem wellFormedWord_encode (i : Instr) : wellFormedWord (encode i) = true :=
  List.any_eq_true.mpr ⟨i.row, row_mem_encodingTable i, row_holds_encode i⟩

/-- A word of no row decodes to no instruction: the instruction's encoding would be that word, and lies in a row. -/
theorem decodeWord_illegal {w : Word} (h : wellFormedWord w = false) : ∃ why, decodeWord w = .illegal why := by
  cases hd : decodeWord w with
  | illegal why => exact ⟨why, rfl⟩
  | instr i =>
    have hlegal := wellFormedWord_encode i
    rw [encode_of_decodeWord hd, h] at hlegal
    cases hlegal

end Sys2Proof
end

section
/-! Proofs of the exceptions family (spec 60_exceptions.md): the illegal word (R153). -/

namespace Sys2Proof.Machine

/-! ### The step of a Running machine, by what it fetches -/

/-- A word given by its two bytes as numbers is the word those bytes make (R32). -/
theorem fetch_of_toNat {s : State} {w : Word} (heven : s.pc.toNat % 2 = 0) (hbound : s.pc.toNat ≤ 4094)
    (hw : w.toNat = (s.mem.read s.pc.toNat).toNat * 256 + (s.mem.read (s.pc.toNat + 1)).toNat) :
    s.fetch = .word w := by
  rw [← toNat_wordOfBytes] at hw
  rw [s.fetch_word heven hbound, BitVec.eq_of_toNat_eq hw]

/-- A Running machine decodes and executes the word it fetches (R70, R71). -/
theorem step_of_fetch_word {s : State} {w : Word} (hsched : s.schedule = []) (hmode : s.mode = .running)
    (hfetch : s.fetch = .word w) : step s = s.runWord w := by
  rw [step_of_empty s hsched, stepEvent_running s hmode, State.runInstruction, hfetch]

theorem runWord_illegal (s : State) {w : Word} (h : wellFormedWord w = false) :
    s.runWord w = .next (s.raise .decodeFault (some w) none) := by
  obtain ⟨why, hd⟩ := decodeWord_illegal h
  rw [State.runWord, hd]

/-! ### The steps after a fault -/

/-- A step that halts the machine is followed by steps that change nothing (R162). -/
theorem runSteps_of_raise {s : State} {cause : FaultCause} {word dataAddr : Option Word} (n : Nat)
    (hsched : s.schedule = []) (hstep : step s = .next (s.raise cause word dataAddr)) :
    runSteps (n + 1) s = .next (s.raise cause word dataAddr) := by
  have hfixed : step (s.raise cause word dataAddr) = .next (s.raise cause word dataAddr) :=
    (step_of_empty (s.raise cause word dataAddr) hsched).trans (stepEvent_halted _ _ rfl)
  rw [runSteps_succ n s _ hstep, runSteps_of_fixed n _ hfixed]

/-! ### The obligation -/

/-- Settles O8: the first step raises DecodeFault on the fetched word, and the halted state is a fixed point of the
steps that follow. -/
theorem illegalWordHaltsForGood : Obligations.IllegalWordHaltsForGood := by
  refine ⟨fun s w n hsched hmode heven hbound hw hillegal => ?halts, ?zero⟩
  case halts =>
    have hstep : step s = s.runWord w := step_of_fetch_word hsched hmode (fetch_of_toNat heven hbound hw)
    exact runSteps_of_raise n hsched (hstep.trans (runWord_illegal s hillegal))
  case zero => decide

end Sys2Proof.Machine
end

section
/-! Proofs of the reset family (spec 70_reset_and_hazards.md): which images `reset` accepts, and where it puts them
(R192). -/

namespace Sys2Proof.Machine

/-! ### The meaning of `reset`, one equation per case of the length check -/

theorem runEvent_reset_accepted (s : State) {image : List Byte} (h : image.length ≤ Config.maxImage) :
    runEvent (.reset image) s = .next (s.loaded image) :=
  if_neg (Nat.not_lt.mpr h)

theorem runEvent_reset_oversized (s : State) {image : List Byte} (h : Config.maxImage < image.length) :
    runEvent (.reset image) s = .fault .loadFault :=
  if_pos h

/-! ### Where the image lies -/

/-- The longest image ends at the last byte of memory, so every byte of an accepted one is stored (R192). -/
theorem State.loaded_read_image (s : State) {image : List Byte} (h : image.length ≤ Config.maxImage) {k : Nat}
    (hk : k < image.length) : (s.loaded image).mem.read (Config.progBase + k) = image[k] := by
  have hfits : Config.progBase + image.length ≤ Config.memSize := Nat.add_le_add_left h Config.progBase
  exact Memory.read_writeBytes_inside image State.reset.mem Config.progBase k hk hfits

/-! ### The obligation -/

/-- Settles O51, by the two cases of the length check. -/
theorem oversizedImageIsALoadFault : Obligations.OversizedImageIsALoadFault := by
  intro s image
  constructor
  · intro hlen
    refine ⟨s.loaded image, runEvent_reset_accepted s hlen, fun k hk => ?_⟩
    rw [List.getD_eq_getElem image 0 hk]
    exact s.loaded_read_image hlen hk
  · exact runEvent_reset_oversized s

end Sys2Proof.Machine
end

section
/-! Proofs of the encoding statements (spec 30_encoding.md sections 1 to 5): the round trips (R64) and the table (R54,
R59). -/

namespace Sys2Proof

/-! ### Decoding what was encoded: the class selects the row's branch, and the sub-field selects the row in it -/

theorem decodeWord_encode (i : Instr) : decodeWord (encode i) = .instr i := by
  cases i with
  | cls | ret => rfl
  | jp | call | ldI | jpV0 => simp [encode, decodeWord]
  | seImm | sneImm | ldImm | addImm | rnd => simp [encode, decodeWord]
  | seReg | sneReg | drw => simp [encode, decodeWord]
  | ldReg | orReg | andReg | xorReg | addReg | subReg | shr | subnReg | shl => simp [encode, decodeWord, decodeClass8]
  | skp | sknp => simp [encode, decodeWord, decodeClassE]
  | ldVxDT | ldVxK | ldDTVx | ldSTVx | addI | ldF | ldB | storeRegs | loadRegs =>
    simp [encode, decodeWord, decodeClassF]

/-- The bytes in memory order make the encoded word again (R32). -/
theorem decodeBytes_encodeBytes (i : Instr) : decodeBytes (encodeBytes i) = .instr i := by
  rw [encodeBytes, decodeBytes, wordOfBytes_hi_lo, decodeWord_encode]

/-! ### A word of a row is put together from the row's fixed fields and its own free ones -/

theorem formatA_of_mask {w : Word} {c : BitVec 4} (h : w &&& 0xF000 = formatA c 0) : formatA c (fieldNNN w) = w := by
  rw [← formatA_fields w, Laws.formatA_mask] at h
  have hc : opClass w = c := by simpa using congrArg opClass h
  exact formatA_of_class (congrArg _ hc)

theorem formatXK_of_mask {w : Word} {c : BitVec 4} (h : w &&& 0xF000 = formatXK c 0 0) :
    formatXK c (fieldX w) (fieldKK w) = w := by
  rw [← formatXK_fields w, Laws.formatXK_mask] at h
  have hc : opClass w = c := by simpa using congrArg opClass h
  exact formatXK_of_class (congrArg _ hc)

theorem formatXK_of_mask_byte {w : Word} {c : BitVec 4} {kk : Byte} (h : w &&& 0xF0FF = formatXK c 0 kk) :
    formatXK c (fieldX w) kk = w := by
  rw [← formatXK_fields w, Laws.formatXK_mask_byte] at h
  have hc : opClass w = c := by simpa using congrArg opClass h
  have hkk : fieldKK w = kk := by simpa using congrArg fieldKK h
  exact formatXK_of_class_byte (congrArg _ hc) (congrArg _ hkk)

theorem formatXY_of_mask {w : Word} {c : BitVec 4} (h : w &&& 0xF000 = formatXY c 0 0 0) :
    formatXY c (fieldX w) (fieldY w) (fieldN w) = w := by
  rw [← formatXY_fields w, Laws.formatXY_mask] at h
  have hc : opClass w = c := by simpa using congrArg opClass h
  exact formatXY_of_class (congrArg _ hc)

theorem formatXY_of_mask_nibble {w : Word} {c : BitVec 4} {n : Nibble} (h : w &&& 0xF00F = formatXY c 0 0 n) :
    formatXY c (fieldX w) (fieldY w) n = w := by
  rw [← formatXY_fields w, Laws.formatXY_mask_nibble] at h
  have hc : opClass w = c := by simpa using congrArg opClass h
  have hn : fieldN w = n := by simpa using congrArg fieldN h
  exact formatXY_of_class_nibble (congrArg _ hc) (congrArg _ hn)

theorem eq_of_mask_all {w v : Word} (h : w &&& 0xFFFF = v) : v = w :=
  h.symm.trans BitVec.and_allOnes

/-- A word in an instruction's row is the encoding of an instruction of that row: the row fixes every bit that is no
operand (R54). -/
theorem exists_encode_of_row_holds {w : Word} (j : Instr) (h : j.row.holds w = true) :
    ∃ i : Instr, i.row = j.row ∧ encode i = w := by
  replace h := eq_of_beq h
  cases j with
  | cls => exact ⟨.cls, rfl, eq_of_mask_all h⟩
  | ret => exact ⟨.ret, rfl, eq_of_mask_all h⟩
  | jp => exact ⟨.jp (fieldNNN w), rfl, formatA_of_mask h⟩
  | call => exact ⟨.call (fieldNNN w), rfl, formatA_of_mask h⟩
  | seImm => exact ⟨.seImm (fieldX w) (fieldKK w), rfl, formatXK_of_mask h⟩
  | sneImm => exact ⟨.sneImm (fieldX w) (fieldKK w), rfl, formatXK_of_mask h⟩
  | seReg => exact ⟨.seReg (fieldX w) (fieldY w), rfl, formatXY_of_mask_nibble h⟩
  | ldImm => exact ⟨.ldImm (fieldX w) (fieldKK w), rfl, formatXK_of_mask h⟩
  | addImm => exact ⟨.addImm (fieldX w) (fieldKK w), rfl, formatXK_of_mask h⟩
  | ldReg => exact ⟨.ldReg (fieldX w) (fieldY w), rfl, formatXY_of_mask_nibble h⟩
  | orReg => exact ⟨.orReg (fieldX w) (fieldY w), rfl, formatXY_of_mask_nibble h⟩
  | andReg => exact ⟨.andReg (fieldX w) (fieldY w), rfl, formatXY_of_mask_nibble h⟩
  | xorReg => exact ⟨.xorReg (fieldX w) (fieldY w), rfl, formatXY_of_mask_nibble h⟩
  | addReg => exact ⟨.addReg (fieldX w) (fieldY w), rfl, formatXY_of_mask_nibble h⟩
  | subReg => exact ⟨.subReg (fieldX w) (fieldY w), rfl, formatXY_of_mask_nibble h⟩
  | shr => exact ⟨.shr (fieldX w) (fieldY w), rfl, formatXY_of_mask_nibble h⟩
  | subnReg => exact ⟨.subnReg (fieldX w) (fieldY w), rfl, formatXY_of_mask_nibble h⟩
  | shl => exact ⟨.shl (fieldX w) (fieldY w), rfl, formatXY_of_mask_nibble h⟩
  | sneReg => exact ⟨.sneReg (fieldX w) (fieldY w), rfl, formatXY_of_mask_nibble h⟩
  | ldI => exact ⟨.ldI (fieldNNN w), rfl, formatA_of_mask h⟩
  | jpV0 => exact ⟨.jpV0 (fieldNNN w), rfl, formatA_of_mask h⟩
  | rnd => exact ⟨.rnd (fieldX w) (fieldKK w), rfl, formatXK_of_mask h⟩
  | drw => exact ⟨.drw (fieldX w) (fieldY w) (fieldN w), rfl, formatXY_of_mask h⟩
  | skp => exact ⟨.skp (fieldX w), rfl, formatXK_of_mask_byte h⟩
  | sknp => exact ⟨.sknp (fieldX w), rfl, formatXK_of_mask_byte h⟩
  | ldVxDT => exact ⟨.ldVxDT (fieldX w), rfl, formatXK_of_mask_byte h⟩
  | ldVxK => exact ⟨.ldVxK (fieldX w), rfl, formatXK_of_mask_byte h⟩
  | ldDTVx => exact ⟨.ldDTVx (fieldX w), rfl, formatXK_of_mask_byte h⟩
  | ldSTVx => exact ⟨.ldSTVx (fieldX w), rfl, formatXK_of_mask_byte h⟩
  | addI => exact ⟨.addI (fieldX w), rfl, formatXK_of_mask_byte h⟩
  | ldF => exact ⟨.ldF (fieldX w), rfl, formatXK_of_mask_byte h⟩
  | ldB => exact ⟨.ldB (fieldX w), rfl, formatXK_of_mask_byte h⟩
  | storeRegs => exact ⟨.storeRegs (fieldX w), rfl, formatXK_of_mask_byte h⟩
  | loadRegs => exact ⟨.loadRegs (fieldX w), rfl, formatXK_of_mask_byte h⟩

/-! ### The decoder against the table -/

/-- A word in an instruction's row decodes to an instruction of that row. -/
theorem decodeWord_of_row_holds {w : Word} (j : Instr) (h : j.row.holds w = true) :
    ∃ i : Instr, i.row = j.row ∧ decodeWord w = .instr i := by
  obtain ⟨i, hrow, hw⟩ := exists_encode_of_row_holds j h
  exact ⟨i, hrow, hw ▸ decodeWord_encode i⟩

theorem decodeWord_of_wellFormed {w : Word} (h : wellFormedWord w = true) : ∃ i, decodeWord w = .instr i := by
  obtain ⟨row, hmem, hrow⟩ := List.any_eq_true.mp h
  obtain ⟨j, -, rfl⟩ := List.mem_map.mp hmem
  obtain ⟨i, -, hi⟩ := decodeWord_of_row_holds j hrow
  exact ⟨i, hi⟩

theorem wellFormedWord_of_decodeWord {w : Word} {i : Instr} (h : decodeWord w = .instr i) : wellFormedWord w = true :=
  encode_of_decodeWord h ▸ wellFormedWord_encode i

/-- An illegal word lies in no row (R59). -/
theorem wellFormedWord_of_illegal {w : Word} {why : Rejection} (h : decodeWord w = .illegal why) :
    wellFormedWord w = false := by
  rw [Bool.eq_false_iff]
  intro hw
  obtain ⟨i, hi⟩ := decodeWord_of_wellFormed hw
  exact nomatch h.symm.trans hi

/-! ### The obligations -/

/-- Settles O2, by the decoder's branch for each instruction. -/
theorem decodeReadsBackEveryEncoding : Obligations.DecodeReadsBackEveryEncoding := fun i =>
  ⟨decodeWord_encode i, decodeBytes_encodeBytes i⟩

/-- Settles O3: each branch of the decoder keeps every field that its row leaves free, the `y` of a shift included. -/
theorem encodeGivesBackEveryLegalWord : Obligations.EncodeGivesBackEveryLegalWord := fun _ _ h =>
  encode_of_decodeWord h

/-- Settles O4: a word of a row is an encoding of that row, and decoding gives one instruction only, so no word lies
in two rows. -/
theorem legalWordsAreTheTablesWords : Obligations.LegalWordsAreTheTablesWords := by
  intro w
  refine ⟨⟨fun ⟨i, hi⟩ => wellFormedWord_of_decodeWord hi, decodeWord_of_wellFormed⟩, fun i hi => ⟨?own, ?other⟩⟩
  case own => exact encode_of_decodeWord hi ▸ row_holds_encode i
  case other =>
    intro j hj
    obtain ⟨k, hrow, hk⟩ := decodeWord_of_row_holds j hj
    obtain rfl : i = k := Decoded.instr.inj (hi.symm.trans hk)
    exact hrow.symm

/-- Settles O1: the decoder evaluated on the thirteen samples. -/
theorem sampleWordsDecode : Obligations.SampleWordsDecode := by
  unfold Obligations.SampleWordsDecode
  decide

end Sys2Proof
end

section
/-! Proofs about the step of a Running machine (spec 40_execution_cycle.md R70 to R72): the decoded instruction, the
fetch faults, and the modes in which no instruction runs. -/

namespace Sys2Proof.Machine

/-! ### The word two bytes make, as a number -/

theorem wordOfBytes_eq_ofNat (hi lo : Byte) : wordOfBytes hi lo = BitVec.ofNat 16 (hi.toNat * 256 + lo.toNat) := by
  rw [← toNat_wordOfBytes, BitVec.ofNat_toNat, BitVec.setWidth_eq]

/-! ### A Running machine -/

/-- What runs is the instruction that the two bytes at `pc` decode to (R32, R71, R72). -/
theorem runInstruction_of_decode {s : State} {i : Instr} (heven : s.pc.toNat % 2 = 0) (hbound : s.pc.toNat ≤ 4094)
    (hdecode : decodeWord (BitVec.ofNat 16
      ((s.mem.read s.pc.toNat).toNat * 256 + (s.mem.read (s.pc.toNat + 1)).toNat)) = .instr i) :
    s.runInstruction = exec i s := by
  rw [← wordOfBytes_eq_ofNat] at hdecode
  simp only [State.runInstruction, s.fetch_word heven hbound, State.runWord, hdecode]

theorem runInstruction_misaligned {s : State} (hodd : s.pc.toNat % 2 = 1) :
    s.runInstruction = .next (s.raise .misalignedPC none none) := by
  simp only [State.runInstruction, State.fetch, hodd, if_true]

theorem runInstruction_outOfBounds {s : State} (heven : s.pc.toNat % 2 = 0) (hbound : 4094 < s.pc.toNat) :
    s.runInstruction = .next (s.raise .fetchOutOfBounds none none) := by
  have hodd : ¬ s.pc.toNat % 2 = 1 := by omega
  simp only [State.runInstruction, State.fetch, if_neg hodd, if_pos hbound]

theorem step_running {s : State} (hsched : s.schedule = []) (hmode : s.mode = .running) :
    step s = s.runInstruction := by
  rw [step_of_empty s hsched, stepEvent_running s hmode]

theorem step_waiting {s : State} {x : RegIndex} (hsched : s.schedule = []) (hmode : s.mode = .waitingForKey x) :
    step s = .next (s.keyWaitCheck x) := by
  rw [step_of_empty s hsched, stepEvent_waiting s x hmode]

/-! ### The obligations -/

/-- Settles O5, for the `step` of an empty schedule and for one that the schedule holds. -/
theorem stepRunsTheDecodedInstruction : Obligations.StepRunsTheDecodedInstruction := by
  intro s i hmode heven hbound hdecode
  refine ⟨fun hsched => ?_, fun rest hsched => ?_⟩
  · rw [step_running hsched hmode, runInstruction_of_decode heven hbound hdecode]
  · rw [step_of_scheduled s _ rest hsched]
    exact (stepEvent_running { s with schedule := rest } hmode).trans
      (runInstruction_of_decode (s := { s with schedule := rest }) heven hbound hdecode)

/-- Settles O6, by the three modes. The key-wait check leaves `pc` and the mode alone, or ends the wait. -/
theorem stepOutsideRunningExecutesNothing : Obligations.StepOutsideRunningExecutesNothing := by
  intro s hsched
  refine ⟨?paused, ?halted, ?waiting⟩
  case paused =>
    rintro ⟨reason, prior, hmode⟩
    rw [step_of_empty s hsched, stepEvent_paused s reason prior hmode]
  case halted =>
    rintro ⟨record, hmode⟩
    rw [step_of_empty s hsched, stepEvent_halted s record hmode]
  case waiting =>
    intro x hmode
    refine ⟨_, step_waiting hsched hmode, ?_⟩
    by_cases hit : s.keys &&& s.keyArmed = 0
    · rw [s.keyWaitCheck_miss x hit]; exact .inl ⟨rfl, rfl⟩
    · rw [s.keyWaitCheck_hit x hit]; exact .inr ⟨rfl, rfl⟩

/-- Settles O7: alignment is tested before the bounds. -/
theorem fetchFaultsHalt : Obligations.FetchFaultsHalt := by
  intro s hsched hmode
  rw [step_running hsched hmode]
  exact ⟨fun hodd => runInstruction_misaligned hodd, fun heven hbound => runInstruction_outOfBounds heven hbound⟩

end Sys2Proof.Machine
end

section
/-! Proofs of the rest of the control family (spec 41_control.md): CALL, JP V0 and nested calls (R83, R84). -/

namespace Sys2Proof.Machine

/-! ### The meanings, one equation per case -/

theorem exec_jpV0 (nnn : Addr12) (s : State) :
    exec (.jpV0 nnn) s = .next (s.jump (zextAddr nnn + zextByte (s.reg 0))) := rfl

/-- CALL with room on the stack (R83). -/
theorem exec_call_room {s : State} (nnn : Addr12) (h : s.sp < 16) :
    exec (.call nnn) s = .next ({ s with stack := (s.pc + 2) :: s.stack }.jump (zextAddr nnn)) :=
  if_pos h

/-- CALL on a full stack is StackOverflow (R83, log 7). -/
theorem exec_call_full {s : State} (nnn : Addr12) (h : 16 ≤ s.sp) :
    exec (.call nnn) s = .next (s.raiseIn (.call nnn) .stackOverflow) :=
  if_neg (Nat.not_lt.mpr h)

/-- The word of format A as a number (R51). -/
theorem formatA_eq_ofNat (c : BitVec 4) (nnn : Addr12) :
    formatA c nnn = BitVec.ofNat 16 (4096 * c.toNat + nnn.toNat) := by
  have hc := c.isLt
  have hn := nnn.isLt
  have h : (formatA c nnn).toNat = c.toNat <<< 12 ||| nnn.toNat := BitVec.toNat_append c nnn
  rw [← Nat.shiftLeft_add_eq_or_of_lt hn, Nat.shiftLeft_eq] at h
  apply BitVec.eq_of_toNat_eq
  rw [h, BitVec.toNat_ofNat]
  omega

theorem encode_call (nnn : Addr12) : encode (.call nnn) = BitVec.ofNat 16 (0x2000 + nnn.toNat) :=
  formatA_eq_ofNat 0x2 nnn

/-- The largest sum is 0xFFF + 0xFF, which fits in 16 bits (R84). -/
theorem toNat_jumpV0_target (nnn : Addr12) (b : Byte) :
    (zextAddr nnn + zextByte b).toNat = nnn.toNat + b.toNat := by
  have hn := nnn.isLt
  have hb := b.isLt
  rw [BitVec.toNat_add, toNat_zextAddr, toNat_zextByte]
  omega

/-! ### Running several instructions -/

theorem execAll_cons {i : Instr} {is : List Instr} {s t : State} (h : exec i s = .next t) :
    execAll (i :: is) s = execAll is t := by
  rw [execAll, h]

/-- A run of two lists is the run of the second from where the first ends. -/
theorem execAll_append {is js : List Instr} {s t : State} (h : execAll is s = .next t) :
    execAll (is ++ js) s = execAll js t := by
  induction is generalizing s with
  | nil => cases h; rfl
  | cons i is ih =>
    rw [execAll] at h
    rw [List.cons_append, execAll]
    cases hi : exec i s with
    | next u => rw [hi] at h; exact ih h
    | fault f => rw [hi] at h; cases h
    | refused r => rw [hi] at h; cases h

/-- Calls and as many returns move `pc` alone, and to after the first call if there is one. The last return undoes the
first call, whatever the calls and returns between them left in `pc`. -/
theorem execAll_calls_returns (targets : List Addr12) (s : State) (hroom : s.sp + targets.length ≤ 16) :
    ∃ a, (targets ≠ [] → a = s.pc + 2) ∧
      execAll (targets.map .call ++ List.replicate targets.length .ret) s = .next { s with pc := a } := by
  induction targets generalizing s with
  | nil => exact ⟨s.pc, fun h => absurd rfl h, rfl⟩
  | cons nnn targets ih =>
    rw [List.length_cons] at hroom
    have hcall := exec_call_room (s := s) nnn (by omega)
    obtain ⟨a, -, hinner⟩ := ih ({ s with stack := (s.pc + 2) :: s.stack }.jump (zextAddr nnn))
      (by simp only [State.sp, State.jump_stack, List.length_cons] at hroom ⊢; omega)
    refine ⟨s.pc + 2, fun _ => rfl, ?_⟩
    rw [List.length_cons, List.replicate_succ', ← List.append_assoc, List.map_cons, List.cons_append, List.cons_append,
      execAll_cons hcall, execAll_append hinner]
    rfl

/-! ### The obligations -/

/-- Settles O12: the sum never wraps. -/
theorem jumpV0AddsTheOffset : Obligations.JumpV0AddsTheOffset := fun s nnn =>
  ⟨_, exec_jpV0 nnn s, toNat_jumpV0_target nnn (s.reg 0), UnchangedBut.setPc s _⟩

/-- Settles O13, by whether the stack has room. -/
theorem callPushesTheReturnAddress : Obligations.CallPushesTheReturnAddress := by
  intro s nnn
  constructor
  · intro hroom
    have hpushed : ({ s with stack := (s.pc + 2) :: s.stack }.jump (zextAddr nnn)).stack = (s.pc + 2) :: s.stack := rfl
    refine ⟨_, exec_call_room nnn hroom, toNat_zextAddr nnn, State.sp_of_pushed hpushed,
      State.stackEntry_newest hpushed, fun k hk => State.stackEntry_older hpushed hk, ?_⟩
    exact ((UnchangedBut.setStack s _).mono fun _ => Or.inl).trans ((UnchangedBut.setPc _ _).mono fun _ => Or.inr)
  · intro hfull
    rw [exec_call_full nnn hfull, State.raiseIn_eq, encode_call]

/-- Settles O14, by induction on the calls. -/
theorem nestedCallsReturnToTheFirst : Obligations.NestedCallsReturnToTheFirst := by
  intro s targets hne hroom
  obtain ⟨a, ha, hrun⟩ := execAll_calls_returns targets s hroom
  rw [hrun, ha hne]

end Sys2Proof.Machine
end

section
/-! Proofs of the keypad family (spec 47_keypad.md): the key skips (R137, R138) and the key wait (R139, R140). -/

namespace Sys2Proof.Machine

/-! ### The meanings -/

theorem exec_skp (x : RegIndex) (s : State) :
    exec (.skp x) s = .next (s.skipIf (keyPressed s.keys (lowNibble (s.reg x)))) := rfl

theorem exec_sknp (x : RegIndex) (s : State) :
    exec (.sknp x) s = .next (s.skipIf (!keyPressed s.keys (lowNibble (s.reg x)))) := rfl

theorem exec_ldVxK (x : RegIndex) (s : State) : exec (.ldVxK x) s = .next (s.openKeyWait x) := rfl

/-- The distance of a skip whose condition is the opposite one. -/
theorem distance_not (c : Bool) : (if !c then 4 else 2 : Word) = if c = true then 2 else 4 := by
  cases c <;> rfl

/-! ### Frames -/

/-- Replacing the latch changes the latch alone (R19). -/
theorem UnchangedBut.setArmed (s : State) (armed : KeyVector) :
    UnchangedBut (fun p => p = .armed) s { s with keyArmed := armed } := by
  intro p hp
  cases p with
  | armed => exact absurd rfl hp
  | random => exact ⟨rfl, rfl⟩
  | reg | index | pc | delay | sound | stack | byte | pixel | keys | mode | schedule => rfl

/-- Replacing the mode changes the mode alone (R21). -/
theorem UnchangedBut.setMode (s : State) (mode : Mode) :
    UnchangedBut (fun p => p = .mode) s { s with mode := mode } := by
  intro p hp
  cases p with
  | mode => exact absurd rfl hp
  | random => exact ⟨rfl, rfl⟩
  | reg | index | pc | delay | sound | stack | byte | pixel | keys | armed | schedule => rfl

/-- Replacing the key vector changes the keys alone (R18). -/
theorem UnchangedBut.setKeys (s : State) (keys : KeyVector) :
    UnchangedBut (fun p => p = .keys) s { s with keys := keys } := by
  intro p hp
  cases p with
  | keys => exact absurd rfl hp
  | random => exact ⟨rfl, rfl⟩
  | reg | index | pc | delay | sound | stack | byte | pixel | armed | mode | schedule => rfl

theorem UnchangedBut.openKeyWait (s : State) (x : RegIndex) :
    UnchangedBut (fun p => p = .mode ∨ p = .armed) s (s.openKeyWait x) :=
  ((UnchangedBut.setArmed s (~~~s.keys)).mono fun _ => Or.inr).trans
    ((UnchangedBut.setMode _ (.waitingForKey x)).mono fun _ => Or.inl)

/-- The end of a key wait: the register, the latch, `pc` and the mode (R140). -/
theorem UnchangedBut.endKeyWait (s : State) (x : RegIndex) (v : Byte) :
    UnchangedBut (fun p => p = .reg x ∨ p = .armed ∨ p = .pc ∨ p = .mode) s
      { s.setReg x v with keyArmed := 0, pc := s.pc + 2, mode := .running } :=
  ((UnchangedBut.setReg s x v).mono fun _ => Or.inl).trans
    (((UnchangedBut.setArmed _ 0).mono fun _ h => .inr (.inl h)).trans
      (((UnchangedBut.setPc _ (s.pc + 2)).mono fun _ h => .inr (.inr (.inl h))).trans
        ((UnchangedBut.setMode _ .running).mono fun _ h => .inr (.inr (.inr h)))))

/-! ### The key-wait check, key by key -/

/-- A key is fresh when it is pressed and armed. A vector of 16 bits is 0 when none of its bits is set. -/
theorem fresh_eq_zero {keys armed : KeyVector}
    (h : ∀ k, k < 16 → keys.getLsbD k = false ∨ armed.getLsbD k = false) : keys &&& armed = 0 := by
  apply BitVec.eq_of_getLsbD_eq
  intro k hk
  rw [BitVec.getLsbD_and, Bool.and_eq_false_iff.mpr (h k hk)]
  exact BitVec.getLsbD_zero.symm

theorem fresh_ne_zero {keys armed : KeyVector} {k : Nat} (hpressed : keys.getLsbD k = true)
    (harmed : armed.getLsbD k = true) : keys &&& armed ≠ 0 := by
  intro h
  simpa [hpressed, harmed] using congrArg (BitVec.getLsbD · k) h

/-- Key `k` is the lowest fresh one (R140). -/
theorem lowestSet_fresh {keys armed : KeyVector} {k : Nat} (hk : k < 16) (hpressed : keys.getLsbD k = true)
    (harmed : armed.getLsbD k = true)
    (hleast : ∀ j, j < k → keys.getLsbD j = false ∨ armed.getLsbD j = false) : lowestSet (keys &&& armed) = k := by
  apply lowestSet_eq _ k hk
  · simp [hpressed, harmed]
  · intro j hj
    rw [BitVec.getLsbD_and, Bool.and_eq_false_iff]
    exact hleast j hj

/-- The wait that LD Vx, K opens is left as it is by the check: no key is both pressed and armed, and every key now
up is armed already (R139, R140). -/
theorem keyWaitCheck_openKeyWait (s : State) (x : RegIndex) : (s.openKeyWait x).keyWaitCheck x = s.openKeyWait x := by
  have hmiss : (s.openKeyWait x).keys &&& (s.openKeyWait x).keyArmed = 0 := by
    simp
  rw [State.keyWaitCheck_miss _ x hmiss]
  simp [State.openKeyWait]

/-! ### Setting one key -/

/-- Bit `k` after bit `code` was set (R136). -/
theorem getLsbD_setKeyBit (keys : KeyVector) (code k : Nat) (pressed : Bool) (hk : k < 16) :
    (setKeyBit keys code pressed).getLsbD k = if k = code then pressed else keys.getLsbD k := by
  by_cases h : k = code
  · subst h
    cases pressed <;> simp [setKeyBit, hk]
  · cases pressed <;> simp [setKeyBit, hk, h]

theorem runEvent_setKey_known (s : State) {code : Nat} (pressed : Bool) (h : code < 16) :
    runEvent (.setKey code pressed) s = .next { s with keys := setKeyBit s.keys code pressed } :=
  congrArg _ (if_pos h)

theorem runEvent_setKey_ignored (s : State) {code : Nat} (pressed : Bool) (h : 16 ≤ code) :
    runEvent (.setKey code pressed) s = .next s :=
  congrArg _ (if_neg (Nat.not_lt.mpr h))

/-! ### The obligations -/

/-- Settles O16: both are `skipIf`, on the key level and on its opposite. -/
theorem keySkipsTestTheKeyLevel : Obligations.KeySkipsTestTheKeyLevel := fun s x =>
  ⟨next_skipIf_spec (exec_skp x s) rfl, next_skipIf_spec (exec_sknp x s) (distance_not _)⟩

/-- Settles O31: the latch is the complement of the keys. -/
theorem loadKeyOpensTheWait : Obligations.LoadKeyOpensTheWait := by
  intro s x
  refine ⟨_, exec_ldVxK x s, rfl, fun k hk => ?_, UnchangedBut.openKeyWait s x⟩
  simp [hk]

/-- Settles O32, by whether some key is fresh: the lowest one is what `lowestSet` finds. -/
theorem lowestFreshPressEndsTheWait : Obligations.LowestFreshPressEndsTheWait := by
  intro s x hsched hmode
  rw [step_waiting hsched hmode]
  constructor
  · intro k hk hpressed harmed hleast
    rw [s.keyWaitCheck_hit x (fresh_ne_zero hpressed harmed), lowestSet_fresh hk hpressed harmed hleast]
    refine ⟨_, rfl, ?_, rfl, rfl, rfl, UnchangedBut.endKeyWait s x _⟩
    calc ((s.setReg x (BitVec.ofNat 8 k)).reg x).toNat = (BitVec.ofNat 8 k).toNat := by rw [State.reg_setReg_same]
      _ = k := by rw [BitVec.toNat_ofNat]; omega
  · intro hnone
    rw [s.keyWaitCheck_miss x (fresh_eq_zero hnone)]
    refine ⟨_, rfl, fun k hk => ?_, UnchangedBut.setArmed s _⟩
    simp [hk]

/-- Settles O33: the opened wait is a fixed point of the step. -/
theorem heldKeysNeverEndTheWait : Obligations.HeldKeysNeverEndTheWait := by
  intro s t x n hsched hexec
  obtain rfl : s.openKeyWait x = t := Host.Outcome.next.inj ((exec_ldVxK x s).symm.trans hexec)
  apply runSteps_of_fixed
  rw [step_waiting (s := s.openKeyWait x) hsched rfl, keyWaitCheck_openKeyWait]

/-- Settles O34, by whether the code names a key. -/
theorem setKeyChangesOneKey : Obligations.SetKeyChangesOneKey := by
  intro s code pressed
  by_cases hcode : code < 16
  · exact ⟨_, runEvent_setKey_known s pressed hcode, fun k hk => getLsbD_setKeyBit s.keys code k pressed hk,
      UnchangedBut.setKeys s _⟩
  · refine ⟨s, runEvent_setKey_ignored s pressed (by omega), fun k hk => ?_, UnchangedBut.refl _ s⟩
    rw [if_neg (by omega)]

end Sys2Proof.Machine
end

section
/-! Proofs of the rest of the arithmetic and move families and of the random family (spec 43_move.md, 44_arith.md,
45_random.md). -/

namespace Sys2Proof.Machine

/-! ### The meanings -/

theorem exec_ldF (x : RegIndex) (s : State) :
    exec (.ldF x) s = .next { s with I := glyphAddr (lowNibble (s.reg x)) }.advance := rfl

theorem exec_addI (x : RegIndex) (s : State) :
    exec (.addI x) s = .next { s with I := s.I + zextByte (s.reg x) }.advance := rfl

theorem exec_addImm (x : RegIndex) (kk : Byte) (s : State) :
    exec (.addImm x kk) s = .next (s.setReg x (addMod (s.reg x) kk)).advance := rfl

theorem exec_orReg (x y : RegIndex) (s : State) :
    exec (.orReg x y) s = .next (s.setReg x (s.reg x ||| s.reg y)).advance := rfl

theorem exec_andReg (x y : RegIndex) (s : State) :
    exec (.andReg x y) s = .next (s.setReg x (s.reg x &&& s.reg y)).advance := rfl

theorem exec_xorReg (x y : RegIndex) (s : State) :
    exec (.xorReg x y) s = .next (s.setReg x (s.reg x ^^^ s.reg y)).advance := rfl

theorem exec_subReg (x y : RegIndex) (s : State) : exec (.subReg x y) s =
    .next (s.writeWithFlag x (subMod (s.reg x) (s.reg y)) (notBorrow (s.reg x) (s.reg y))) := rfl

theorem exec_subnReg (x y : RegIndex) (s : State) : exec (.subnReg x y) s =
    .next (s.writeWithFlag x (subMod (s.reg y) (s.reg x)) (notBorrow (s.reg y) (s.reg x))) := rfl

theorem exec_shr (x y : RegIndex) (s : State) : exec (.shr x y) s =
    .next (s.writeWithFlag x (shiftRight (s.reg x)) (shiftedOutRight (s.reg x))) := rfl

theorem exec_shl (x y : RegIndex) (s : State) : exec (.shl x y) s =
    .next (s.writeWithFlag x (shiftLeft (s.reg x)) (shiftedOutLeft (s.reg x))) := rfl

theorem exec_rnd (x : RegIndex) (kk : Byte) (s : State) :
    exec (.rnd x kk) s = .next (s.takeRnd.setReg x (s.rndByte &&& kk)).advance := rfl

/-! ### Index arithmetic as numbers -/

/-- No glyph address wraps (R101). -/
theorem toNat_glyphAddr_lowNibble (v : Byte) : (glyphAddr (lowNibble v)).toNat = 0x050 + 5 * (v.toNat % 16) := by
  rw [glyphAddr, lowNibble, BitVec.toNat_ofNat, fontBase]
  omega

theorem toNat_add_zextByte (a : Word) (b : Byte) : (a + zextByte b).toNat = (a.toNat + b.toNat) % 65536 := by
  rw [BitVec.toNat_add, toNat_zextByte]

/-! ### Results and flags as numbers -/

/-- `(a - b) mod 256` as an integer (R110, R112). -/
theorem toNat_subMod_int (a b : Byte) : ((subMod a b).toNat : Int) = ((a.toNat : Int) - b.toNat) % 256 := by
  have hb := b.isLt
  rw [toNat_subMod]
  omega

/-- NOT borrow as VF holds it (R110, R112). -/
theorem toNat_flagByte_notBorrow (a b : Byte) :
    (flagByte (notBorrow a b)).toNat = if a.toNat < b.toNat then 0 else 1 := by
  simp only [toNat_flagByte, notBorrow_iff, ← Nat.not_lt, ite_not]

/-- The bit that SHR pushes out, as VF holds it (R111). -/
theorem toNat_flagByte_shiftedOutRight (a : Byte) : (flagByte (shiftedOutRight a)).toNat = a.toNat % 2 := by
  simp only [toNat_flagByte, shiftedOutRight_iff]
  split <;> omega

/-- The bit that SHL pushes out, as VF holds it (R113). -/
theorem toNat_flagByte_shiftedOutLeft (a : Byte) : (flagByte (shiftedOutLeft a)).toNat = a.toNat / 128 := by
  have ha := a.isLt
  simp only [toNat_flagByte, shiftedOutLeft_iff]
  split <;> omega

/-- An instruction that means `writeWithFlag`, with its result and its flag given by any property `R` and as a
number. -/
theorem next_writeWithFlag_spec_of {r : Result} {s : State} {x : RegIndex} {result : Byte} {flag : Bool}
    {R : Byte → Prop} {n : Nat} (hr : r = .next (s.writeWithFlag x result flag)) (hresult : R result)
    (hflag : (flagByte flag).toNat = n) :
    ∃ t, r = .next t ∧ (x ≠ 0xF → R (t.reg x)) ∧ (t.reg 0xF).toNat = n ∧ t.pc = s.pc + 2 ∧
      UnchangedBut (fun p => p = .reg x ∨ p = .reg 0xF ∨ p = .pc) s t := by
  obtain ⟨t, ht, hx, hF, hpc, hframe⟩ := next_writeWithFlag_spec hr
  exact ⟨t, ht, fun hne => hx hne ▸ hresult, hF ▸ hflag, hpc, hframe⟩

/-! ### The random source -/

/-- Taking a random byte moves the source alone (R120). -/
theorem UnchangedBut.takeRnd (s : State) : UnchangedBut (fun p => p = .random) s s.takeRnd := by
  intro p hp
  cases p with
  | random => exact absurd rfl hp
  | reg j => exact s.reg_takeRnd j
  | byte | pixel => simp [Part.Same]
  | index | pc | delay | sound | stack | keys | armed | mode | schedule => simp [Part.Same]

theorem UnchangedBut.rnd (s : State) (x : RegIndex) (v : Byte) :
    UnchangedBut (fun p => p = .reg x ∨ p = .random ∨ p = .pc) s (s.takeRnd.setReg x v).advance :=
  ((UnchangedBut.takeRnd s).mono fun _ h => .inr (.inl h)).trans
    ((UnchangedBut.setReg s.takeRnd x v).thenAdvance.mono fun _ h => h.imp_right Or.inr)

/-! ### The obligations -/

/-- Settles O19: both write `I` and advance. -/
theorem indexArithmeticLeavesVF : Obligations.IndexArithmeticLeavesVF := fun s x =>
  ⟨⟨_, exec_ldF x s, toNat_glyphAddr_lowNibble _, rfl, (UnchangedBut.setIndex s _).thenAdvance⟩,
    ⟨_, exec_addI x s, toNat_add_zextByte _ _, rfl, (UnchangedBut.setIndex s _).thenAdvance⟩⟩

/-- Settles O21: one register write of the sum modulo 256, and `advance`. -/
theorem addImmediateDiscardsTheCarry : Obligations.AddImmediateDiscardsTheCarry := by
  intro s x kk
  obtain ⟨t, ht, hx, hpc, hframe⟩ := next_setReg_advance_spec (exec_addImm x kk s)
  exact ⟨t, ht, by rw [hx, toNat_addMod], hpc, hframe⟩

/-- Settles O22: each of the three is one register write of its bitwise operation, and `advance`. -/
theorem logicWorksBitByBit : Obligations.LogicWorksBitByBit := by
  intro s x y
  refine ⟨?or, ?and, ?xor⟩
  case or =>
    obtain ⟨t, ht, hx, hpc, hframe⟩ := next_setReg_advance_spec (exec_orReg x y s)
    exact ⟨t, ht, fun k _ => by rw [hx, BitVec.getLsbD_or], hpc, hframe⟩
  case and =>
    obtain ⟨t, ht, hx, hpc, hframe⟩ := next_setReg_advance_spec (exec_andReg x y s)
    exact ⟨t, ht, fun k _ => by rw [hx, BitVec.getLsbD_and], hpc, hframe⟩
  case xor =>
    obtain ⟨t, ht, hx, hpc, hframe⟩ := next_setReg_advance_spec (exec_xorReg x y s)
    exact ⟨t, ht, fun k _ => by rw [hx, BitVec.getLsbD_xor], hpc, hframe⟩

/-- Settles O24: both are `writeWithFlag` of a difference and its NOT borrow, the operands in opposite order. -/
theorem subtractsSetNotBorrow : Obligations.SubtractsSetNotBorrow := fun s x y =>
  ⟨next_writeWithFlag_spec_of (R := fun v => (v.toNat : Int) = ((s.reg x).toNat - (s.reg y).toNat) % 256)
      (exec_subReg x y s) (toNat_subMod_int _ _) (toNat_flagByte_notBorrow _ _),
    next_writeWithFlag_spec_of (R := fun v => (v.toNat : Int) = ((s.reg y).toNat - (s.reg x).toNat) % 256)
      (exec_subnReg x y s) (toNat_subMod_int _ _) (toNat_flagByte_notBorrow _ _)⟩

/-- Settles O25: both are `writeWithFlag` of the shifted Vx and the bit pushed out. `y` is not used. -/
theorem shiftsWorkInPlace : Obligations.ShiftsWorkInPlace := fun s x y =>
  ⟨next_writeWithFlag_spec_of (R := fun v => v.toNat = (s.reg x).toNat / 2)
      (exec_shr x y s) (toNat_shiftRight _) (toNat_flagByte_shiftedOutRight _),
    next_writeWithFlag_spec_of (R := fun v => v.toNat = 2 * (s.reg x).toNat % 256)
      (exec_shl x y s) (toNat_shiftLeft _) (toNat_flagByte_shiftedOutLeft _)⟩

/-- Settles O26: `r` is the source's next byte, from whichever of its two parts gives it. -/
theorem randomTakesOneByteUnderTheMask : Obligations.RandomTakesOneByteUnderTheMask := by
  intro s x kk
  have hx : ((s.takeRnd.setReg x (s.rndByte &&& kk)).advance).reg x = s.rndByte &&& kk :=
    s.takeRnd.reg_setReg_same x _
  refine ⟨_, s.rndByte, exec_rnd x kk s, hx, fun b rest hin => ?supplied, fun hin => ?drawn, fun k hk => ?masked, ?pc,
    UnchangedBut.rnd s x _⟩
  case supplied =>
    obtain ⟨hb, htake⟩ := s.rndByte_supplied b rest hin
    exact ⟨hb, by simp [htake], by simp [htake]⟩
  case drawn =>
    obtain ⟨hb, htake⟩ := s.rndByte_open hin
    exact ⟨hb, by simp [htake, hin], by simp [htake]⟩
  case masked => rw [hx, BitVec.getLsbD_and, hk, Bool.and_false]
  case pc => simp

end Sys2Proof.Machine
end

section
/-! Proofs of the rest of the display family (spec 46_display.md): the laws of `draw` (R128), and DRW (R125). -/

namespace Sys2Proof.Machine

/-! ### One pixel under flips -/

theorem FlippedIf.eq_of_not {p : Prop} {a b : Bool} (h : FlippedIf p a b) (hp : ¬ p) : b = a :=
  Bool.eq_iff_iff.mpr (h.eq_true_iff hp)

theorem FlippedIf.eq_not {p : Prop} {a b : Bool} (h : FlippedIf p a b) (hp : p) : b = !a := by
  rw [Bool.eq_iff_iff, Bool.not_eq_true']
  simpa [FlippedIf, hp] using h

/-- Flipping a pixel twice by the same cover restores it. -/
theorem FlippedIf.twice {p : Prop} {a b c : Bool} (hab : FlippedIf p a b) (hbc : FlippedIf p b c) : c = a := by
  by_cases hp : p
  · rw [hbc.eq_not hp, hab.eq_not hp, Bool.not_not]
  · rw [hbc.eq_of_not hp, hab.eq_of_not hp]

/-- A pixel is set and covered before the flip exactly when the flip clears it. -/
theorem FlippedIf.cleared_iff {p : Prop} {a b : Bool} (h : FlippedIf p a b) :
    a = true ∧ p ↔ a = true ∧ b = false := by
  by_cases hp : p
  · simp [h.eq_not hp, hp]
  · simp [h.eq_of_not hp, hp]

/-- A pixel is set and covered after the flip exactly when the flip set it. -/
theorem FlippedIf.raised_iff {p : Prop} {a b : Bool} (h : FlippedIf p a b) :
    b = true ∧ p ↔ a = false ∧ b = true := by
  by_cases hp : p
  · simp [h.eq_not hp, hp]
  · simp [h.eq_of_not hp, hp]

theorem FlippedIf.congr {p q : Prop} {a b : Bool} (h : FlippedIf p a b) (hpq : p ↔ q) : FlippedIf q a b :=
  propext hpq ▸ h

/-! ### When a draw collides -/

/-- The height of a sprite is at most 15, less than the 32 rows of the display. -/
theorem draw_flips_of_height (fb : Framebuffer) (x0 y0 : Nat) {sprite : List Byte} (hlen : sprite.length ≤ 15) :
    Drawing.Flips (SpriteCovers x0 y0 sprite.length (fun r => sprite.getD r 0)) ⟨fb, false⟩ (draw fb x0 y0 sprite) :=
  draw_flips fb x0 y0 (hlen.trans (by decide))

/-- A draw collides exactly when it covers a set pixel. -/
theorem draw_collided_iff (fb : Framebuffer) (x0 y0 : Nat) {sprite : List Byte} (hlen : sprite.length ≤ 15) :
    (draw fb x0 y0 sprite).collided = true ↔ ∃ row col, fb.pixel row col = true ∧
      SpriteCovers x0 y0 sprite.length (fun r => sprite.getD r 0) row col := by
  simpa using (draw_flips_of_height fb x0 y0 hlen).collided

/-- A draw collides exactly when it clears a pixel (R124). -/
theorem draw_collided_iff_cleared (fb : Framebuffer) (x0 y0 : Nat) {sprite : List Byte} (hlen : sprite.length ≤ 15) :
    (draw fb x0 y0 sprite).collided = true ↔
      ∃ row col, fb.pixel row col = true ∧ (draw fb x0 y0 sprite).fb.pixel row col = false :=
  (draw_collided_iff fb x0 y0 hlen).trans
    (exists_congr fun row => exists_congr fun col => ((draw_flips_of_height fb x0 y0 hlen).pixel row col).cleared_iff)

/-- A sprite of zero bytes covers no pixel. -/
theorem not_spriteCovers_of_zero {x0 y0 : Nat} {sprite : List Byte} (hzero : ∀ b ∈ sprite, b = 0) (row : Fin 32)
    (col : Fin 64) : ¬ SpriteCovers x0 y0 sprite.length (fun r => sprite.getD r 0) row col := by
  rintro ⟨r, c, hr, -, hbit, -, -⟩
  beta_reduce at hbit
  rw [List.getD_eq_getElem sprite 0 hr, hzero _ (List.getElem_mem hr)] at hbit
  simp at hbit

/-! ### DRW -/

theorem exec_drw_inside {s : State} {x y : RegIndex} {n : Nibble} (h : n = 0 ∨ s.I.toNat + n.toNat ≤ 4096) :
    exec (.drw x y n) s = .next (s.showDrawing (s.drawSprite x y n)) :=
  congrArg _ (s.withRange_inside _ _ _ (h.imp_left fun hn => hn ▸ rfl))

/-- The sprite that DRW reads covers what the bytes at `I` cover. -/
theorem spriteCovers_readBytes (m : Memory) (a x0 y0 n : Nat) (row : Fin 32) (col : Fin 64) :
    SpriteCovers x0 y0 (m.readBytes a n).length (fun r => (m.readBytes a n).getD r 0) row col ↔
      SpriteCovers x0 y0 n (fun r => m.read (a + r)) row col := by
  rw [Memory.length_readBytes]
  refine exists_congr fun r => exists_congr fun c => and_congr_right fun hr => ?_
  beta_reduce
  rw [Memory.getD_readBytes m a n r hr]

/-- Showing a drawing changes pixels, VF and `pc`, and nothing else (R125). -/
theorem UnchangedBut.showDrawing (s : State) (d : Drawing) :
    UnchangedBut (fun p => p.isPixel ∨ p = .reg 0xF ∨ p = .pc) s (s.showDrawing d) :=
  ((UnchangedBut.setFb s d.fb).mono fun _ => Or.inl).trans
    ((UnchangedBut.setReg _ VF (flagByte d.collided)).thenAdvance.mono fun _ => Or.inr)

theorem reg_VF_showDrawing (s : State) (d : Drawing) : (s.showDrawing d).reg 0xF = flagByte d.collided :=
  State.reg_setReg_same { s with fb := d.fb } VF _

/-! ### The obligations -/

/-- Settles O28: the second draw covers the same pixels as the first. -/
theorem drawingTwiceRestoresTheDisplay : Obligations.DrawingTwiceRestoresTheDisplay := by
  intro fb x0 y0 sprite hlen
  have hfirst := (draw_flips_of_height fb x0 y0 hlen).pixel
  have hsecond := (draw_flips_of_height (draw fb x0 y0 sprite).fb x0 y0 hlen).pixel
  refine ⟨Framebuffer.ext_pixel _ _ fun row col => (hfirst row col).twice (hsecond row col), ?_⟩
  rw [draw_collided_iff _ x0 y0 hlen]
  exact exists_congr fun row => exists_congr fun col => (hfirst row col).raised_iff

/-- Settles O29: a collision needs a set pixel, and a flip needs a covered one. -/
theorem blankAndEmptyDrawsNeverCollide : Obligations.BlankAndEmptyDrawsNeverCollide := by
  intro fb x0 y0 sprite hlen
  refine ⟨fun hblank => ?blank, fun hzero => ⟨?same, ?empty⟩⟩
  case blank =>
    rw [Bool.eq_false_iff, Ne, draw_collided_iff fb x0 y0 hlen]
    rintro ⟨row, col, hset, -⟩
    exact Bool.false_ne_true ((hblank row col).symm.trans hset)
  case same =>
    refine Framebuffer.ext_pixel _ _ fun row col => ?_
    exact ((draw_flips_of_height fb x0 y0 hlen).pixel row col).eq_of_not (not_spriteCovers_of_zero hzero row col)
  case empty =>
    rw [Bool.eq_false_iff, Ne, draw_collided_iff fb x0 y0 hlen]
    rintro ⟨row, col, -, hcovered⟩
    exact not_spriteCovers_of_zero hzero row col hcovered

/-- Settles O30: DRW shows the drawing of the bytes at `I`, and VF holds whether that drawing cleared a pixel. -/
theorem drwDrawsTheSpriteAtI : Obligations.DrwDrawsTheSpriteAtI := by
  intro s x y n hrange
  have hlen : (s.mem.readBytes s.I.toNat n.toNat).length ≤ 15 := by
    rw [Memory.length_readBytes]
    exact Nat.le_of_lt_succ n.isLt
  have hflips := draw_flips_of_height s.fb (s.reg x).toNat (s.reg y).toNat hlen
  have hcleared := draw_collided_iff_cleared s.fb (s.reg x).toNat (s.reg y).toNat hlen
  have hflag := reg_VF_showDrawing s (s.drawSprite x y n)
  refine ⟨_, exec_drw_inside hrange, fun row col => ?pixels, fun hsome => ?collision, fun hall => ?none, rfl,
    UnchangedBut.showDrawing s _⟩
  case pixels => exact (hflips.pixel row col).congr (spriteCovers_readBytes _ _ _ _ _ row col)
  case collision =>
    have hcollided : (s.drawSprite x y n).collided = true := hcleared.mpr hsome
    rw [hflag, hcollided]
    rfl
  case none =>
    have hcollided : (s.drawSprite x y n).collided = false := by
      rw [Bool.eq_false_iff]
      intro h
      obtain ⟨row, col, hset, hunset⟩ := hcleared.mp h
      exact Bool.false_ne_true (hunset.symm.trans (hall row col hset))
    rw [hflag, hcollided]
    rfl

end Sys2Proof.Machine
end

section
/-! Proofs of the rest of the memory family (spec 48_memory.md, 20_memory.md): LD B (R145), the ranges out of memory
(R33), and a store that the next fetch sees (R42). -/

namespace Sys2Proof.Machine

/-! ### The meanings, one equation per case of the range check -/

theorem exec_ldB_inside {s : State} {x : RegIndex} (h : s.I.toNat ≤ 4093) :
    exec (.ldB x) s = .next (s.storeAtI (bcd (s.reg x))) :=
  congrArg _ (s.withRange_inside _ _ _ (.inr (by omega)))

theorem exec_ldB_outside {s : State} {x : RegIndex} (h : 4093 < s.I.toNat) :
    exec (.ldB x) s = .next (s.raiseBounds (.ldB x)) :=
  congrArg _ (s.withRange_outside _ _ _ (Nat.succ_ne_zero _) (by omega))

theorem exec_drw_outside {s : State} {x y : RegIndex} {n : Nibble} (hn : n.toNat ≠ 0) (h : 4096 < s.I.toNat + n.toNat) :
    exec (.drw x y n) s = .next (s.raiseBounds (.drw x y n)) :=
  congrArg _ (s.withRange_outside _ _ _ hn h)

/-! ### The words that the records hold -/

/-- The word of formats XY and XYN as a number (R51). -/
theorem formatXY_eq_ofNat (c : BitVec 4) (x y : RegIndex) (n : Nibble) :
    formatXY c x y n = BitVec.ofNat 16 (4096 * c.toNat + 256 * x.toNat + 16 * y.toNat + n.toNat) := by
  have hc := c.isLt
  have hx := x.isLt
  have hy := y.isLt
  have hn := n.isLt
  have hcx : (c ++ x).toNat = c.toNat <<< 4 ||| x.toNat := BitVec.toNat_append c x
  have hcxy : (c ++ x ++ y).toNat = (c ++ x).toNat <<< 4 ||| y.toNat := BitVec.toNat_append (c ++ x) y
  have h : (formatXY c x y n).toNat = (c ++ x ++ y).toNat <<< 4 ||| n.toNat := BitVec.toNat_append (c ++ x ++ y) n
  rw [← Nat.shiftLeft_add_eq_or_of_lt hx, Nat.shiftLeft_eq] at hcx
  rw [← Nat.shiftLeft_add_eq_or_of_lt hy, Nat.shiftLeft_eq, hcx] at hcxy
  rw [← Nat.shiftLeft_add_eq_or_of_lt hn, Nat.shiftLeft_eq, hcxy] at h
  apply BitVec.eq_of_toNat_eq
  rw [h, BitVec.toNat_ofNat]
  omega

theorem encode_drw (x y : RegIndex) (n : Nibble) :
    encode (.drw x y n) = BitVec.ofNat 16 (0xD000 + 256 * x.toNat + 16 * y.toNat + n.toNat) :=
  formatXY_eq_ofNat 0xD x y n

theorem encode_ldB (x : RegIndex) : encode (.ldB x) = BitVec.ofNat 16 (0xF033 + 256 * x.toNat) :=
  (formatXK_eq_ofNat 0xF x 0x33).trans (congrArg _ (Nat.add_right_comm 0xF000 _ 0x33))

/-! ### The decimal digits -/

/-- Byte `k` of the three that LD B stores (R145). -/
theorem read_storeAtI_bcd {s : State} (v : Byte) (h : s.I.toNat ≤ 4093) (k : Nat) (hk : k < 3) :
    (s.storeAtI (bcd v)).mem.read (s.I.toNat + k) = (bcd v)[k]'hk := by
  have hfits : s.I.toNat + (bcd v).length ≤ Config.memSize := by
    simp only [bcd, List.length_cons, List.length_nil, Config.memSize]
    omega
  exact Memory.read_writeBytes_inside (bcd v) s.mem s.I.toNat k hk hfits

theorem toNat_hundreds (v : Byte) : (hundreds v).toNat = v.toNat / 100 := by
  have hv := v.isLt
  rw [hundreds, BitVec.toNat_ofNat]
  omega

theorem toNat_tens (v : Byte) : (tens v).toNat = v.toNat / 10 % 10 := by
  rw [tens, BitVec.toNat_ofNat]
  omega

theorem toNat_ones (v : Byte) : (ones v).toNat = v.toNat % 10 := by
  rw [ones, BitVec.toNat_ofNat]
  omega

/-! ### The obligations -/

/-- Settles O35: the three bytes stored are the digits, and a read of each finds it. -/
theorem storeDecimalDigits : Obligations.StoreDecimalDigits := by
  intro s x hin
  have hread := read_storeAtI_bcd (s.reg x) hin
  refine ⟨_, exec_ldB_inside hin, ?hundreds, ?tens, ?ones, rfl, UnchangedBut.storeAtI s (bcd (s.reg x))⟩
  case hundreds => exact (congrArg _ (hread 0 (by decide))).trans (toNat_hundreds _)
  case tens => exact (congrArg _ (hread 1 (by decide))).trans (toNat_tens _)
  case ones => exact (congrArg _ (hread 2 (by decide))).trans (toNat_ones _)

/-- Settles O38: the range check fails before anything is done. -/
theorem drawAndDigitsOutOfMemoryHalt : Obligations.DrawAndDigitsOutOfMemoryHalt := by
  refine fun s x y n => ⟨fun hn hout => ?_, fun hout => ?_⟩
  · have hne : n.toNat ≠ 0 := fun h => hn (BitVec.eq_of_toNat_eq h)
    rw [exec_drw_outside hne (by omega), s.raiseBounds_of_encode (encode_drw x y n)]
  · rw [exec_ldB_outside hout, s.raiseBounds_of_encode (encode_ldB x)]

/-- Settles O39: the two bytes at the new `pc` are the two registers stored there, and the step after the store
decodes them. -/
theorem storedBytesAreFetchedNext : Obligations.StoredBytesAreFetchedNext := by
  intro s t x a b i hsched hmode hin hexec heven hpc hb hbx hdecode
  obtain rfl : s.storeAtI (s.firstRegs (x.toNat + 1)) = t :=
    Host.Outcome.next.inj ((exec_storeRegs_inside hin).symm.trans hexec)
  have hbound : (s.storeAtI (s.firstRegs (x.toNat + 1))).pc.toNat ≤ 4094 := by omega
  rw [step_running (s := s.storeAtI _) hsched hmode]
  refine runInstruction_of_decode heven hbound ?_
  rw [hpc, Nat.add_assoc, ← hb, read_storeAtI_firstRegs hin (by omega), read_storeAtI_firstRegs hin hbx]
  exact hdecode

end Sys2Proof.Machine
end

section
/-! What an instruction can do, once for all 34 (spec 40_execution_cycle.md R72): the pieces it may write, the shape of
the state it answers, and the pieces it does not read. Every later fact about a step rests on these three. -/

namespace Sys2Proof.Machine

/-! ### Which pieces an instruction may write (R25) -/

/-- The instruction is one that the spec lets write the piece. Any may move `pc`, and change the mode by a fault. -/
def MayWrite (i : Instr) : Part → Prop
  | .reg j => isDestination j i = true ∨ (j = 0xF ∧ writesFlag i = true)
  | .index => (∃ nnn, i = .ldI nnn) ∨ (∃ x, i = .addI x) ∨ ∃ x, i = .ldF x
  | .delay => ∃ x, i = .ldDTVx x
  | .sound => ∃ x, i = .ldSTVx x
  | .stack => i = .ret ∨ ∃ nnn, i = .call nnn
  | .byte _ => (∃ x, i = .ldB x) ∨ ∃ x, i = .storeRegs x
  | .pixel _ _ => i = .cls ∨ ∃ x y n, i = .drw x y n
  | .armed => ∃ x, i = .ldVxK x
  | .random => ∃ x kk, i = .rnd x kk
  | .pc | .mode => True
  | .keys | .schedule => False

theorem mayWrite_pc (i : Instr) (p : Part) (h : p = .pc) : MayWrite i p :=
  h ▸ trivial

theorem mayWrite_destination {i : Instr} {x : RegIndex} (hx : isDestination x i = true) (p : Part)
    (h : p = .reg x ∨ p = .pc) : MayWrite i p := by
  rcases h with rfl | rfl
  · exact .inl hx
  · trivial

theorem mayWrite_flag {i : Instr} {x : RegIndex} (hx : isDestination x i = true) (hf : writesFlag i = true) (p : Part)
    (h : p = .reg x ∨ p = .reg VF ∨ p = .pc) : MayWrite i p := by
  rcases h with rfl | rfl | rfl
  · exact .inl hx
  · exact .inr ⟨rfl, hf⟩
  · trivial

/-- A checked range changes what its body may change, or the mode (R33, R152). -/
theorem UnchangedBut.withRange {may : Part → Prop} {s body : State} (i : Instr) (len : Nat) (hmode : may .mode)
    (hbody : UnchangedBut may s body) : UnchangedBut may s (s.withRange i len body) := by
  rcases s.withRange_cases i len body with ⟨-, h⟩ | ⟨-, -, h⟩
  · rw [h]; exact hbody
  · exact h ▸ (UnchangedBut.raise s _ _ _).mono fun _ hp => hp ▸ hmode

theorem exec_ret_frame (s : State) : ∃ t, exec .ret s = .next t ∧ UnchangedBut (MayWrite .ret) s t := by
  match hs : s.stack with
  | [] => exact ⟨_, exec_ret_empty hs, (UnchangedBut.raise s _ _ _).mono fun _ hp => hp ▸ trivial⟩
  | ra :: rest =>
    refine ⟨_, exec_ret_live hs, ((UnchangedBut.setStack s rest).mono fun _ hp => ?_).trans
      ((UnchangedBut.setPc _ ra).mono (mayWrite_pc .ret))⟩
    exact hp ▸ .inl rfl

theorem exec_call_frame (nnn : Addr12) (s : State) :
    ∃ t, exec (.call nnn) s = .next t ∧ UnchangedBut (MayWrite (.call nnn)) s t := by
  by_cases h : s.sp < 16
  · refine ⟨_, exec_call_room nnn h, ((UnchangedBut.setStack s _).mono fun _ hp => ?_).trans
      ((UnchangedBut.setPc _ _).mono (mayWrite_pc _))⟩
    exact hp ▸ .inr ⟨nnn, rfl⟩
  · exact ⟨_, exec_call_full nnn (Nat.not_lt.mp h), (UnchangedBut.raise s _ _ _).mono fun _ hp => hp ▸ trivial⟩

theorem exec_drw_frame (x y : RegIndex) (n : Nibble) (s : State) :
    ∃ t, exec (.drw x y n) s = .next t ∧ UnchangedBut (MayWrite (.drw x y n)) s t := by
  refine ⟨_, rfl, UnchangedBut.withRange _ _ trivial ((UnchangedBut.showDrawing s _).mono fun p hp => ?_)⟩
  rcases hp with hp | rfl | rfl
  · cases p with
    | pixel => exact .inr ⟨x, y, n, rfl⟩
    | _ => exact hp.elim
  · exact .inr ⟨rfl, rfl⟩
  · trivial

/-- A store at `I` is within what an instruction that may write memory may write. -/
theorem storeAtI_frame {i : Instr} (s : State) (bs : List Byte) (h : ∀ a, MayWrite i (.byte a)) :
    UnchangedBut (MayWrite i) s (s.storeAtI bs) := by
  refine (UnchangedBut.storeAtI s bs).mono fun p hp => ?_
  rcases hp with hp | rfl
  · cases p with
    | byte a => exact h a
    | _ => exact hp.elim
  · trivial

theorem exec_loadRegs_frame (x : RegIndex) (s : State) :
    ∃ t, exec (.loadRegs x) s = .next t ∧ UnchangedBut (MayWrite (.loadRegs x)) s t := by
  have hkept := UnchangedBut.setRegsUpTo s x _ fun j hj =>
    (getElem_loadInto_upTo s x j).trans (if_neg (Nat.not_le.mpr hj))
  refine ⟨_, rfl, UnchangedBut.withRange _ _ trivial (hkept.thenAdvance.mono fun p hp => ?_)⟩
  rcases hp with hp | rfl
  · cases p with
    | reg j => exact .inl (decide_eq_true hp)
    | _ => exact hp.elim
  · trivial

/-- Every instruction answers a next state, and in it only what the instruction may write has changed. -/
theorem exec_frame (i : Instr) (s : State) : ∃ t, exec i s = .next t ∧ UnchangedBut (MayWrite i) s t := by
  cases i with
  | cls =>
    refine ⟨_, exec_cls s, (UnchangedBut.setFb s _).thenAdvance.mono fun p hp => ?_⟩
    rcases hp with hp | rfl
    · cases p with
      | pixel => exact .inl rfl
      | _ => exact hp.elim
    · trivial
  | ret => exact exec_ret_frame s
  | call nnn => exact exec_call_frame nnn s
  | jp | jpV0 => exact ⟨_, rfl, (UnchangedBut.setPc s _).mono (mayWrite_pc _)⟩
  | seImm | sneImm | seReg | sneReg | skp | sknp => exact ⟨_, rfl, (UnchangedBut.skipIf s _).mono (mayWrite_pc _)⟩
  | ldImm x | addImm x | ldReg x | orReg x | andReg x | xorReg x | ldVxDT x =>
    exact ⟨_, rfl, (UnchangedBut.setReg s x _).thenAdvance.mono (mayWrite_destination (beq_self_eq_true x))⟩
  | addReg x | subReg x | shr x | subnReg x | shl x =>
    exact ⟨_, rfl, (UnchangedBut.writeWithFlag s x _ _).mono (mayWrite_flag (beq_self_eq_true x) rfl)⟩
  | rnd x kk =>
    refine ⟨_, rfl, (UnchangedBut.rnd s x _).mono fun p hp => ?_⟩
    rcases hp with rfl | rfl | rfl
    · exact .inl (beq_self_eq_true x)
    · exact ⟨x, kk, rfl⟩
    · trivial
  | ldI | addI | ldF =>
    refine ⟨_, rfl, (UnchangedBut.setIndex s _).thenAdvance.mono fun p hp => ?_⟩
    rcases hp with rfl | rfl <;> simp [MayWrite]
  | ldDTVx =>
    refine ⟨_, rfl, (UnchangedBut.setDelay s _).thenAdvance.mono fun p hp => ?_⟩
    rcases hp with rfl | rfl <;> simp [MayWrite]
  | ldSTVx =>
    refine ⟨_, rfl, (UnchangedBut.setSound s _).thenAdvance.mono fun p hp => ?_⟩
    rcases hp with rfl | rfl <;> simp [MayWrite]
  | ldVxK x =>
    refine ⟨_, rfl, (UnchangedBut.openKeyWait s x).mono fun p hp => ?_⟩
    rcases hp with rfl | rfl <;> simp [MayWrite]
  | drw x y n => exact exec_drw_frame x y n s
  | ldB x => exact ⟨_, rfl, UnchangedBut.withRange _ _ trivial (storeAtI_frame s _ fun _ => .inl ⟨x, rfl⟩)⟩
  | storeRegs x => exact ⟨_, rfl, UnchangedBut.withRange _ _ trivial (storeAtI_frame s _ fun _ => .inr ⟨x, rfl⟩)⟩
  | loadRegs x => exact exec_loadRegs_frame x s

theorem unchangedBut_of_exec {i : Instr} {s t : State} (h : exec i s = .next t) : UnchangedBut (MayWrite i) s t := by
  obtain ⟨u, hu, hframe⟩ := exec_frame i s
  obtain rfl : u = t := Host.Outcome.next.inj (hu.symm.trans h)
  exact hframe

/-! ### The shape of the state an instruction answers -/

/-- How `pc` and the call stack move under an instruction that does not fault (R13, R81 to R84). -/
inductive ControlMove (s t : State) : Prop
  | next (stack : t.stack = s.stack) (pc : t.pc = s.pc + 2)
  | skip (stack : t.stack = s.stack) (pc : t.pc = s.pc + 4)
  | jump (nnn : Addr12) (stack : t.stack = s.stack) (pc : t.pc = zextAddr nnn)
  | offset (nnn : Addr12) (b : Byte) (stack : t.stack = s.stack) (pc : t.pc = zextAddr nnn + zextByte b)
  | call (nnn : Addr12) (room : s.sp < 16) (stack : t.stack = (s.pc + 2) :: s.stack) (pc : t.pc = zextAddr nnn)
  | ret (stack : s.stack = t.pc :: t.stack)

/-- Memory is as it was, or the instruction is one of the two that store, and stored bytes at `I` (R40). -/
def MemoryMove (i : Instr) (s t : State) : Prop :=
  t.mem = s.mem ∨
    ((∃ x, i = .ldB x) ∨ ∃ x, i = .storeRegs x) ∧ ∃ bs, t.mem = s.mem.writeBytes s.I.toNat bs

/-- Everything an instruction can answer: a fault of the table that changes the mode alone (R151), an open key wait
(R139), or a state of the same mode and latch. -/
inductive ExecOutcome (i : Instr) (s t : State) : Prop
  | faults (r : FaultRecord) (state : t = { s with mode := .halted r }) (addr : r.addr = s.pc) (tabled : r.asTabled)
  | waits (x : RegIndex) (state : t = s.openKeyWait x)
  | runs (mode : t.mode = s.mode) (latch : t.keyArmed = s.keyArmed) (mem : MemoryMove i s t) (control : ControlMove s t)

theorem asTabled_raiseBounds (s : State) (i : Instr) :
    FaultRecord.asTabled ⟨.memoryOutOfBounds, s.pc, some (encode i), some (firstOutOfRange s.I)⟩ :=
  ⟨rfl, _, rfl, toNat_firstOutOfRange s.I ▸ Nat.le_max_right _ _⟩

/-- The outcome of a checked range is that of its body, or MemoryOutOfBounds. -/
theorem ExecOutcome.withRange {i : Instr} {s body : State} (j : Instr) (len : Nat) (hbody : ExecOutcome i s body) :
    ExecOutcome i s (s.withRange j len body) := by
  rcases s.withRange_cases j len body with ⟨-, h⟩ | ⟨-, -, h⟩
  · rw [h]; exact hbody
  · exact .faults _ (h.trans (s.raiseBounds_eq j)) rfl (asTabled_raiseBounds s j)

theorem ExecOutcome.skipIf (i : Instr) (s : State) (c : Bool) : ExecOutcome i s (s.skipIf c) := by
  cases c with
  | false => exact .runs rfl rfl (.inl rfl) (.next rfl rfl)
  | true => exact .runs rfl rfl (.inl rfl) (.skip rfl rfl)

theorem exec_ret_outcome (s : State) : ∃ t, exec .ret s = .next t ∧ ExecOutcome .ret s t := by
  match hs : s.stack with
  | [] => exact ⟨_, exec_ret_empty hs, .faults _ (s.raiseIn_eq _ _) rfl ⟨rfl, rfl⟩⟩
  | ra :: rest => exact ⟨_, exec_ret_live hs, .runs rfl rfl (.inl rfl) (.ret hs)⟩

theorem exec_call_outcome (nnn : Addr12) (s : State) :
    ∃ t, exec (.call nnn) s = .next t ∧ ExecOutcome (.call nnn) s t := by
  by_cases h : s.sp < 16
  · exact ⟨_, exec_call_room nnn h, .runs rfl rfl (.inl rfl) (.call nnn h rfl rfl)⟩
  · exact ⟨_, exec_call_full nnn (Nat.not_lt.mp h), .faults _ (s.raiseIn_eq _ _) rfl ⟨rfl, nnn, rfl⟩⟩

theorem exec_outcome (i : Instr) (s : State) : ∃ t, exec i s = .next t ∧ ExecOutcome i s t := by
  cases i with
  | cls | ldImm | addImm | ldReg | orReg | andReg | xorReg | ldVxDT | ldI | addI | ldF | ldDTVx | ldSTVx
  | addReg | subReg | shr | subnReg | shl =>
    exact ⟨_, rfl, .runs rfl rfl (.inl rfl) (.next rfl rfl)⟩
  | rnd x kk =>
    exact ⟨_, exec_rnd x kk s, .runs s.takeRnd_mode s.takeRnd_keyArmed (.inl s.takeRnd_mem)
      (.next s.takeRnd_stack (congrArg (· + 2) s.takeRnd_pc))⟩
  | ret => exact exec_ret_outcome s
  | call nnn => exact exec_call_outcome nnn s
  | jp nnn => exact ⟨_, rfl, .runs rfl rfl (.inl rfl) (.jump nnn rfl rfl)⟩
  | jpV0 nnn => exact ⟨_, rfl, .runs rfl rfl (.inl rfl) (.offset nnn _ rfl rfl)⟩
  | seImm | sneImm | seReg | sneReg | skp | sknp => exact ⟨_, rfl, .skipIf _ s _⟩
  | ldVxK x => exact ⟨_, rfl, .waits x rfl⟩
  | drw | loadRegs => exact ⟨_, rfl, .withRange _ _ (.runs rfl rfl (.inl rfl) (.next rfl rfl))⟩
  | ldB x =>
    exact ⟨_, rfl, .withRange _ _ (.runs rfl rfl (.inr ⟨.inl ⟨x, rfl⟩, _, rfl⟩) (.next rfl rfl))⟩
  | storeRegs x =>
    exact ⟨_, rfl, .withRange _ _ (.runs rfl rfl (.inr ⟨.inr ⟨x, rfl⟩, _, rfl⟩) (.next rfl rfl))⟩

theorem outcome_of_exec {i : Instr} {s t : State} (h : exec i s = .next t) : ExecOutcome i s t := by
  obtain ⟨u, hu, houtcome⟩ := exec_outcome i s
  obtain rfl : u = t := Host.Outcome.next.inj (hu.symm.trans h)
  exact houtcome

/-- Only the two storing instructions change memory. -/
theorem ExecOutcome.mem_changed {i : Instr} {s t : State} (h : ExecOutcome i s t) (hmem : t.mem ≠ s.mem) :
    (∃ x, i = .ldB x) ∨ ∃ x, i = .storeRegs x := by
  cases h with
  | faults r state => exact absurd (congrArg State.mem state) hmem
  | waits x state => exact absurd (congrArg State.mem state) hmem
  | runs _ _ mem _ =>
    rcases mem with hsame | ⟨hstores, -⟩
    · exact absurd hsame hmem
    · exact hstores

/-! ### The flag (R11, R115) -/

/-- A flag writer leaves 0 or 1 in VF, or it has halted the machine. -/
theorem flag_of_exec {i : Instr} {s t : State} (hflag : writesFlag i = true) (h : exec i s = .next t) :
    (∃ b, t.reg 0xF = flagByte b) ∨ ∃ r, t.mode = .halted r := by
  cases i with
  | addReg | subReg | shr | subnReg | shl =>
    obtain rfl := Host.Outcome.next.inj h
    exact .inl ⟨_, State.writeWithFlag_flag s _ _ _⟩
  | drw x y n =>
    obtain rfl := Host.Outcome.next.inj h
    rcases s.withRange_cases (.drw x y n) n.toNat (s.showDrawing (s.drawSprite x y n)) with ⟨-, hin⟩ | ⟨-, -, hout⟩
    · rw [hin]; exact .inl ⟨_, reg_VF_showDrawing s _⟩
    · rw [hout]; exact .inr ⟨_, rfl⟩
  | _ => cases hflag

theorem flagByte_eq_zero_or_one (b : Bool) : flagByte b = 0 ∨ flagByte b = 1 := by
  cases b with
  | false => exact .inl rfl
  | true => exact .inr rfl

/-! ### The obligations -/

/-- Settles O43: each piece's clause is the frame of `exec` read at that piece. Memory's is about the list that holds
it, which the outcome gives. -/
theorem onlyItsInstructionsWriteEachPiece : Obligations.OnlyItsInstructionsWriteEachPiece := by
  intro i s t h
  have hframe := unchangedBut_of_exec h
  refine ⟨hframe .keys id, hframe .schedule id, not_imp_comm.mp (hframe .delay), not_imp_comm.mp (hframe .sound),
    not_imp_comm.mp fun hfb => Framebuffer.ext_pixel _ _ fun row col => hframe (.pixel row col) hfb,
    not_imp_comm.mp (hframe .stack), (outcome_of_exec h).mem_changed, not_imp_comm.mp (hframe .index),
    not_imp_comm.mp (hframe .armed), not_imp_comm.mp (hframe .random)⟩

/-- Settles O44: the first clause is the frame of `exec` read at a register, the second is about the six alone. -/
theorem onlySixInstructionsWriteTheFlag : Obligations.OnlySixInstructionsWriteTheFlag := by
  intro i s t h
  refine ⟨fun j hdest hnoflag => unchangedBut_of_exec h (.reg j) ?_, fun hflag _ hmode => ?_⟩
  · rintro (hj | hj)
    · exact Bool.false_ne_true (hdest.symm.trans hj)
    · exact hnoflag hj
  · rcases flag_of_exec hflag h with ⟨b, hb⟩ | ⟨r, hr⟩
    · rw [hb]; exact flagByte_eq_zero_or_one b
    · cases hmode.symm.trans hr

end Sys2Proof.Machine
end

section
/-! The pieces that no instruction reads (spec 10_state.md R19, R26): the sound timer, the key latch and the host's
schedule. Two runs that differ in them differ in nothing else. -/

namespace Sys2Proof.Machine

/-! ### Two states that differ in the unread pieces alone -/

/-- The state with the sound timer, the key latch and the schedule replaced. -/
def State.setUnread (s : State) (sound : Byte) (latch : KeyVector) (rest : List Event) : State :=
  { s with ST := sound, keyArmed := latch, schedule := rest }

/-- The sound timer after the instruction, when it was `sound` before it: LD ST, Vx alone writes over it (R100). -/
def soundAfter (i : Instr) (t : State) (sound : Byte) : Byte :=
  match i with
  | .ldSTVx _ => t.ST
  | _ => sound

/-- The latch after the instruction, when it was `latch` before it: LD Vx, K alone writes over it (R139). -/
def latchAfter (i : Instr) (t : State) (latch : KeyVector) : KeyVector :=
  match i with
  | .ldVxK _ => t.keyArmed
  | _ => latch

theorem soundAfter_of_ne {i : Instr} (t : State) (sound : Byte) (h : ∀ x, i ≠ .ldSTVx x) :
    soundAfter i t sound = sound := by
  cases i with
  | ldSTVx x => exact absurd rfl (h x)
  | _ => rfl

theorem latchAfter_of_ne {i : Instr} (t : State) (latch : KeyVector) (h : ∀ x, i ≠ .ldVxK x) :
    latchAfter i t latch = latch := by
  cases i with
  | ldVxK x => exact absurd rfl (h x)
  | _ => rfl

theorem soundAfter_self {i : Instr} {s t : State} (h : exec i s = .next t) : soundAfter i t s.ST = t.ST := by
  by_cases hST : ∃ x, i = .ldSTVx x
  · obtain ⟨x, rfl⟩ := hST; rfl
  · rw [soundAfter_of_ne t _ fun x e => hST ⟨x, e⟩]
    exact (unchangedBut_of_exec h .sound hST).symm

theorem latchAfter_self {i : Instr} {s t : State} (h : exec i s = .next t) :
    latchAfter i t s.keyArmed = t.keyArmed := by
  by_cases hK : ∃ x, i = .ldVxK x
  · obtain ⟨x, rfl⟩ := hK; rfl
  · rw [latchAfter_of_ne t _ fun x e => hK ⟨x, e⟩]
    exact (unchangedBut_of_exec h .armed hK).symm

/-! ### The shared operations do not read them -/

section Unread

variable (s : State) (sound : Byte) (latch : KeyVector) (rest : List Event)

theorem withRange_setUnread (i : Instr) (len : Nat) (body : State) :
    (s.setUnread sound latch rest).withRange i len (body.setUnread sound latch rest) =
      (s.withRange i len body).setUnread sound latch rest := by
  rcases s.withRange_cases i len body with ⟨hin, h⟩ | ⟨hlen, hout, h⟩
  · rw [h, (s.setUnread sound latch rest).withRange_inside i len _ hin]
  · rw [h, (s.setUnread sound latch rest).withRange_outside i len _ hlen hout]
    rfl

theorem takeRnd_setUnread : (s.setUnread sound latch rest).takeRnd = s.takeRnd.setUnread sound latch rest := by
  match hs : s.rndInputs with
  | [] => rw [((s.setUnread sound latch rest).rndByte_open hs).2, (s.rndByte_open hs).2]; rfl
  | b :: bs =>
    rw [((s.setUnread sound latch rest).rndByte_supplied b bs hs).2, (s.rndByte_supplied b bs hs).2]; rfl

theorem exec_ret_setUnread : ∃ t, exec .ret s = .next t ∧
    exec .ret (s.setUnread sound latch rest) = .next (t.setUnread sound latch rest) := by
  match hs : s.stack with
  | [] => exact ⟨_, exec_ret_empty hs, exec_ret_empty hs⟩
  | _ :: _ => exact ⟨_, exec_ret_live hs, exec_ret_live hs⟩

theorem exec_call_setUnread (nnn : Addr12) : ∃ t, exec (.call nnn) s = .next t ∧
    exec (.call nnn) (s.setUnread sound latch rest) = .next (t.setUnread sound latch rest) := by
  by_cases h : s.sp < 16
  · exact ⟨_, exec_call_room nnn h, exec_call_room nnn h⟩
  · exact ⟨_, exec_call_full nnn (Nat.not_lt.mp h), exec_call_full nnn (Nat.not_lt.mp h)⟩

/-- What an instruction answers from the changed state is what it answers from `s`, with the same change, except in
the piece that it writes over. -/
theorem exec_setUnread (i : Instr) : ∃ t, exec i s = .next t ∧
    exec i (s.setUnread sound latch rest) =
      .next (t.setUnread (soundAfter i t sound) (latchAfter i t latch) rest) := by
  cases i with
  | ret => exact exec_ret_setUnread s sound latch rest
  | call nnn => exact exec_call_setUnread s sound latch rest nnn
  | drw x y n =>
    exact ⟨_, rfl, congrArg Host.Outcome.next
      (withRange_setUnread s sound latch rest _ _ (s.showDrawing (s.drawSprite x y n)))⟩
  | ldB x =>
    exact ⟨_, rfl, congrArg Host.Outcome.next
      (withRange_setUnread s sound latch rest _ _ (s.storeAtI (bcd (s.reg x))))⟩
  | storeRegs x =>
    exact ⟨_, rfl, congrArg Host.Outcome.next
      (withRange_setUnread s sound latch rest _ _ (s.storeAtI (s.firstRegs (x.toNat + 1))))⟩
  | loadRegs x =>
    exact ⟨_, rfl, congrArg Host.Outcome.next (withRange_setUnread s sound latch rest _ _
      { s with V := loadInto s.mem s.I.toNat (x.toNat + 1) s.V }.advance)⟩
  | rnd x kk =>
    refine ⟨_, exec_rnd x kk s, (exec_rnd x kk _).trans ?_⟩
    rw [takeRnd_setUnread]
    rfl
  | _ => exact ⟨_, rfl, rfl⟩

end Unread

/-! ### The schedule: a step can be taken off it before or after the instruction -/

theorem exec_setSchedule {i : Instr} {s t : State} (rest : List Event) (h : exec i s = .next t) :
    exec i { s with schedule := rest } = .next { t with schedule := rest } := by
  obtain ⟨u, hu, hrun⟩ := exec_setUnread s s.ST s.keyArmed rest i
  obtain rfl : u = t := Host.Outcome.next.inj (hu.symm.trans h)
  rw [soundAfter_self h, latchAfter_self h] at hrun
  exact hrun

/-- The step of a Running machine answers a next state, and does not depend on the schedule (R72). -/
theorem runInstruction_setSchedule (s : State) (rest : List Event) : ∃ t, s.runInstruction = .next t ∧
    { s with schedule := rest }.runInstruction = .next { t with schedule := rest } := by
  have hfetch : { s with schedule := rest }.fetch = s.fetch := rfl
  simp only [State.runInstruction, hfetch]
  cases s.fetch with
  | fault cause => exact ⟨_, rfl, rfl⟩
  | word w =>
    simp only [State.runWord]
    cases decodeWord w with
    | illegal why => exact ⟨_, rfl, rfl⟩
    | instr i =>
      obtain ⟨t, ht, -⟩ := exec_frame i s
      exact ⟨t, ht, exec_setSchedule rest ht⟩

theorem keyWaitCheck_setSchedule (s : State) (x : RegIndex) (rest : List Event) :
    { s with schedule := rest }.keyWaitCheck x = { s.keyWaitCheck x with schedule := rest } := by
  by_cases hit : s.keys &&& s.keyArmed = 0
  · rw [s.keyWaitCheck_miss x hit, State.keyWaitCheck_miss { s with schedule := rest } x hit]
  · rw [s.keyWaitCheck_hit x hit, State.keyWaitCheck_hit { s with schedule := rest } x hit]
    rfl

/-- The `step` event answers a next state in every mode, and does not depend on the schedule. -/
theorem stepEvent_setSchedule (s : State) (rest : List Event) : ∃ t, s.stepEvent = .next t ∧
    { s with schedule := rest }.stepEvent = .next { t with schedule := rest } := by
  obtain ⟨m, hmode⟩ : ∃ m, s.mode = m := ⟨_, rfl⟩
  cases m with
  | running =>
    rw [stepEvent_running s hmode, stepEvent_running { s with schedule := rest } hmode]
    exact runInstruction_setSchedule s rest
  | waitingForKey x =>
    exact ⟨_, stepEvent_waiting s x hmode,
      (stepEvent_waiting { s with schedule := rest } x hmode).trans (congrArg _ (keyWaitCheck_setSchedule s x rest))⟩
  | paused reason prior =>
    exact ⟨s, stepEvent_paused s reason prior hmode, stepEvent_paused { s with schedule := rest } reason prior hmode⟩
  | halted r => exact ⟨s, stepEvent_halted s r hmode, stepEvent_halted { s with schedule := rest } r hmode⟩

/-! ### The obligation -/

/-- Settles O45: each clause replaces one unread piece and keeps the other two at their values in `s`. -/
theorem soundTimerAndLatchAreInvisible : Obligations.SoundTimerAndLatchAreInvisible := by
  intro i s t v latch h
  have hschedule : t.schedule = s.schedule := unchangedBut_of_exec h .schedule id
  have hsound : exec i { s with ST := v } = .next { t with ST := soundAfter i t v, schedule := s.schedule } := by
    obtain ⟨u, hu, hrun⟩ := exec_setUnread s v s.keyArmed s.schedule i
    obtain rfl : u = t := Host.Outcome.next.inj (hu.symm.trans h)
    rw [latchAfter_self h] at hrun
    exact hrun
  have hlatch : exec i { s with keyArmed := latch } =
      .next { t with keyArmed := latchAfter i t latch, schedule := s.schedule } := by
    obtain ⟨u, hu, hrun⟩ := exec_setUnread s s.ST latch s.schedule i
    obtain rfl : u = t := Host.Outcome.next.inj (hu.symm.trans h)
    rw [soundAfter_self h] at hrun
    exact hrun
  refine ⟨fun hne => ?_, ?_, fun hne => ?_, ?_⟩
  · rw [hsound, soundAfter_of_ne t v hne, ← hschedule]
  · rintro x rfl
    rw [hsound, ← hschedule, soundAfter]
  · rw [hlatch, latchAfter_of_ne t latch hne, ← hschedule]
  · rintro x rfl
    rw [hlatch, ← hschedule, latchAfter]

end Sys2Proof.Machine
end

section
/-! Proofs about the host's events (spec 60_exceptions.md sections 2, 4 and 6, 10_state.md R25): the timers, the
debugger port, what still acts in Halted, and that only an oversized image stops the model. -/

namespace Sys2Proof.Machine

/-! ### Frames -/

/-- Replacing the schedule changes the schedule alone (log 2). -/
theorem UnchangedBut.setSchedule (s : State) (rest : List Event) :
    UnchangedBut (fun p => p = .schedule) s { s with schedule := rest } := by
  intro p hp
  cases p with
  | schedule => exact absurd rfl hp
  | random => exact ⟨rfl, rfl⟩
  | reg | index | pc | delay | sound | stack | byte | pixel | keys | armed | mode => rfl

theorem UnchangedBut.tick (s : State) : UnchangedBut (fun p => p = .delay ∨ p = .sound) s s.tick :=
  ((UnchangedBut.setDelay s (countDown s.DT)).mono fun _ => Or.inl).trans
    ((UnchangedBut.setSound _ (countDown s.ST)).mono fun _ => Or.inr)

/-- Writing one byte of memory changes that byte alone (R39). -/
theorem UnchangedBut.writeByte (s : State) (a : Nat) (v : Byte) :
    UnchangedBut (fun p => p = .byte a) s { s with mem := s.mem.write a v } :=
  (UnchangedBut.writeBytes s a [v]).mono fun p hp => by
    cases p with
    | byte k =>
      obtain ⟨hle, hlt⟩ := hp
      rw [Nat.le_antisymm hle (Nat.le_of_lt_succ hlt)]
    | _ => exact hp.elim

/-! ### Timers (R165) -/

theorem toNat_countDown (t : Byte) : (countDown t).toNat = t.toNat - 1 := by
  unfold countDown
  split
  · bv_omega
  · omega

/-- The run of `n` ticks, by induction on `n`. -/
theorem runSteps_ticks (n : Nat) (s : State) (h : s.schedule = List.replicate n .tick) :
    ∃ t, runSteps n s = .next t ∧ t.DT.toNat = s.DT.toNat - n ∧ t.ST.toNat = s.ST.toNat - n ∧
      UnchangedBut (fun p => p = .delay ∨ p = .sound ∨ p = .schedule) s t := by
  induction n generalizing s with
  | zero => exact ⟨s, rfl, rfl, rfl, UnchangedBut.refl _ s⟩
  | succ n ih =>
    have hstep : step s = .next { s with schedule := List.replicate n .tick }.tick := step_of_scheduled s _ _ h
    have hframe : UnchangedBut (fun p => p = .delay ∨ p = .sound ∨ p = .schedule) s
        { s with schedule := List.replicate n .tick }.tick :=
      ((UnchangedBut.setSchedule s _).mono fun _ hp => .inr (.inr hp)).trans
        ((UnchangedBut.tick _).mono fun _ hp => hp.imp_right Or.inl)
    obtain ⟨t, hrun, hDT, hST, hrest⟩ := ih { s with schedule := List.replicate n .tick }.tick rfl
    refine ⟨t, (runSteps_succ n s _ hstep).trans hrun, ?_, ?_, hframe.trans hrest⟩
    · rw [hDT, State.tick_DT, toNat_countDown, Nat.sub_sub, Nat.add_comm]
    · rw [hST, State.tick_ST, toNat_countDown, Nat.sub_sub, Nat.add_comm]

/-! ### Pausing and resuming (R175, R176), by mode -/

theorem State.isPaused_iff (s : State) : s.isPaused = true ↔ ∃ label prior, s.mode = .paused label prior := by
  cases hmode : s.mode <;> simp [State.isPaused, hmode]

theorem State.not_isPaused {s : State} (h : ∀ label prior, s.mode ≠ .paused label prior) : s.isPaused = false := by
  rw [Bool.eq_false_iff, Ne, s.isPaused_iff]
  rintro ⟨label, prior, hmode⟩
  exact h label prior hmode

theorem pauseWith_of_prior {s : State} {p : PriorMode} (reason : PauseReason) (h : s.mode.prior = some p) :
    s.pauseWith reason = { s with mode := .paused reason p } := by
  simp only [State.pauseWith, h]

theorem pauseWith_of_none {s : State} (reason : PauseReason) (h : s.mode.prior = none) : s.pauseWith reason = s := by
  simp only [State.pauseWith, h]

theorem resume_paused {s : State} {label : PauseReason} {prior : PriorMode} (h : s.mode = .paused label prior) :
    s.resume = { s with mode := prior.mode } := by
  simp only [State.resume, h]

theorem resume_not_paused {s : State} (h : ∀ label prior, s.mode ≠ .paused label prior) : s.resume = s := by
  unfold State.resume
  split
  next label prior hmode => exact absurd hmode (h label prior)
  all_goals rfl

/-- The saved prior mode is the mode that `resume` restores (R176). -/
theorem Mode.mode_of_prior {m : Mode} {p : PriorMode} (h : m.prior = some p) : p.mode = m := by
  cases m with
  | running => cases h; rfl
  | waitingForKey x => cases h; rfl
  | paused reason prior => cases h
  | halted r => cases h

theorem UnchangedBut.pauseWith (s : State) (reason : PauseReason) :
    UnchangedBut (fun p => p = .mode) s (s.pauseWith reason) := by
  cases h : s.mode.prior with
  | none => rw [pauseWith_of_none reason h]; exact UnchangedBut.refl _ s
  | some p => rw [pauseWith_of_prior reason h]; exact UnchangedBut.setMode s _

theorem UnchangedBut.resume (s : State) : UnchangedBut (fun p => p = .mode) s s.resume := by
  by_cases h : ∃ label prior, s.mode = .paused label prior
  · obtain ⟨label, prior, hmode⟩ := h
    rw [resume_paused hmode]
    exact UnchangedBut.setMode s _
  · rw [resume_not_paused fun label prior hmode => h ⟨label, prior, hmode⟩]
    exact UnchangedBut.refl _ s

theorem PauseRequest.reason_ne_stepDone (r : PauseRequest) : r.reason ≠ .stepDone := by
  cases r <;> simp [PauseRequest.reason]

/-! ### The debugger's writes (R179, R181), accepted or rejected -/

theorem writeRegister_accepted {s : State} {k : Nat} (v : Byte) (hpaused : s.isPaused = true) (hk : k < 16) :
    s.writeRegister k v = .done (.next (s.setReg (BitVec.ofNat 4 k) v)) := by
  simp [State.writeRegister, hpaused, hk]

theorem writeRegister_rejected {s : State} {k : Nat} (v : Byte) (h : s.isPaused = false ∨ 16 ≤ k) :
    s.writeRegister k v = .debuggerMisuse := by
  refine if_neg fun hacc => ?_
  obtain ⟨hpaused, hk⟩ := Bool.and_eq_true_iff.mp hacc
  rcases h with h | h
  · exact Bool.false_ne_true (h.symm.trans hpaused)
  · exact absurd (of_decide_eq_true hk) (Nat.not_lt.mpr h)

theorem writeMemory_accepted {s : State} {a : Nat} (v : Byte) (hpaused : s.isPaused = true) (ha : a < 4096) :
    s.writeMemory a v = .done (.next { s with mem := s.mem.write a v }) := by
  simp [State.writeMemory, hpaused, Config.memSize, ha]

theorem writeMemory_rejected {s : State} {a : Nat} (v : Byte) (h : s.isPaused = false ∨ 4096 ≤ a) :
    s.writeMemory a v = .debuggerMisuse := by
  refine if_neg fun hacc => ?_
  obtain ⟨hpaused, ha⟩ := Bool.and_eq_true_iff.mp hacc
  rcases h with h | h
  · exact Bool.false_ne_true (h.symm.trans hpaused)
  · exact absurd (of_decide_eq_true ha) (Nat.not_lt.mpr h)

/-- A rejected request leaves the state as it is (R181). -/
theorem settle_rejected {s : State} {reply : DebugReply} (h : reply = .debuggerMisuse) :
    reply.settle s = .next s := by
  rw [h]; rfl

/-- What a debugger's register write answers: the write, while Paused and in range, or the same state. -/
theorem runEvent_writeRegister_cases (s : State) (k : Nat) (v : Byte) :
    (s.isPaused = true ∧ k < 16 ∧ runEvent (.writeRegister k v) s = .next (s.setReg (BitVec.ofNat 4 k) v)) ∨
    ((s.isPaused = false ∨ 16 ≤ k) ∧ runEvent (.writeRegister k v) s = .next s) := by
  by_cases h : s.isPaused = true ∧ k < 16
  · obtain ⟨hpaused, hk⟩ := h
    exact .inl ⟨hpaused, hk, congrArg (DebugReply.settle s) (writeRegister_accepted v hpaused hk)⟩
  · have hrej : s.isPaused = false ∨ 16 ≤ k := by
      rwa [not_and_or, Bool.not_eq_true, Nat.not_lt] at h
    exact .inr ⟨hrej, settle_rejected (writeRegister_rejected v hrej)⟩

/-- What a debugger's memory write answers: the write, while Paused and in range, or the same state. -/
theorem runEvent_writeMemory_cases (s : State) (a : Nat) (v : Byte) :
    (s.isPaused = true ∧ a < 4096 ∧ runEvent (.writeMemory a v) s = .next { s with mem := s.mem.write a v }) ∨
    ((s.isPaused = false ∨ 4096 ≤ a) ∧ runEvent (.writeMemory a v) s = .next s) := by
  by_cases h : s.isPaused = true ∧ a < 4096
  · obtain ⟨hpaused, ha⟩ := h
    exact .inl ⟨hpaused, ha, congrArg (DebugReply.settle s) (writeMemory_accepted v hpaused ha)⟩
  · have hrej : s.isPaused = false ∨ 4096 ≤ a := by
      rwa [not_and_or, Bool.not_eq_true, Nat.not_lt] at h
    exact .inr ⟨hrej, settle_rejected (writeMemory_rejected v hrej)⟩

/-! ### The key event, and `step_once` (R136, R177) -/

theorem UnchangedBut.setKey (s : State) (code : Nat) (pressed : Bool) :
    UnchangedBut (fun p => p = .keys) s (s.setKey code pressed) := by
  unfold State.setKey
  split
  · exact UnchangedBut.setKeys s _
  · exact UnchangedBut.refl _ s

theorem stepOnce_not_paused {s : State} (h : ∀ label prior, s.mode ≠ .paused label prior) :
    s.stepOnce = .debuggerMisuse := by
  unfold State.stepOnce
  split
  next label prior hmode => exact absurd hmode (h label prior)
  all_goals rfl

theorem runEvent_stepOnce_rejected {s : State} (h : ∀ label prior, s.mode ≠ .paused label prior) :
    runEvent .stepOnce s = .next s :=
  settle_rejected (stepOnce_not_paused h)

theorem runEvent_stepOnce_paused {s : State} {label : PauseReason} {prior : PriorMode}
    (h : s.mode = .paused label prior) :
    runEvent .stepOnce s = pauseAgain { s with mode := prior.mode }.stepEvent := by
  simp only [runEvent, State.stepOnce, h, DebugReply.settle]

/-- `step_once` is one step from the saved mode, taken with no host event scheduled, and then a pause of what can be
paused. -/
theorem stepOnce_of_paused {s : State} {label : PauseReason} {prior : PriorMode} (h : s.mode = .paused label prior) :
    ∃ t, step { s with mode := prior.mode, schedule := [] } = .next t ∧
      (t.mode.prior = none → runEvent .stepOnce s = .next { t with schedule := s.schedule }) ∧
      ∀ p, t.mode.prior = some p →
        runEvent .stepOnce s = .next { t with mode := .paused .stepDone p, schedule := s.schedule } := by
  obtain ⟨t, ht, hsched⟩ := stepEvent_setSchedule { s with mode := prior.mode, schedule := [] } s.schedule
  have hrun : runEvent .stepOnce s = .next (State.pauseWith { t with schedule := s.schedule } .stepDone) :=
    (runEvent_stepOnce_paused h).trans (congrArg pauseAgain hsched)
  have hstep : step { s with mode := prior.mode, schedule := [] } = .next t :=
    (step_of_empty { s with mode := prior.mode, schedule := [] } rfl).trans ht
  refine ⟨t, hstep, fun hnone => ?_, fun p hp => ?_⟩
  · exact hrun.trans (congrArg Host.Outcome.next (pauseWith_of_none _ hnone))
  · exact hrun.trans (congrArg Host.Outcome.next (pauseWith_of_prior _ hp))

/-! ### Every event but an oversized reset answers a next state -/

theorem stepEvent_next (s : State) : ∃ t, s.stepEvent = .next t := by
  obtain ⟨t, ht, -⟩ := stepEvent_setSchedule s s.schedule
  exact ⟨t, ht⟩

theorem runEvent_stepOnce_next (s : State) : ∃ t, runEvent .stepOnce s = .next t := by
  by_cases h : ∃ label prior, s.mode = .paused label prior
  · obtain ⟨label, prior, hmode⟩ := h
    obtain ⟨t, -, hnone, hsome⟩ := stepOnce_of_paused hmode
    cases hp : t.mode.prior with
    | none => exact ⟨_, hnone hp⟩
    | some p => exact ⟨_, hsome p hp⟩
  · exact ⟨s, runEvent_stepOnce_rejected fun label prior hmode => h ⟨label, prior, hmode⟩⟩

theorem runEvent_next (e : Event) (s : State) :
    (∃ t, runEvent e s = .next t) ∨
      (runEvent e s = .fault .loadFault ∧ ∃ image, e = .reset image ∧ 3584 < image.length) := by
  cases e with
  | step => exact .inl (stepEvent_next s)
  | tick | setKey | pause | resume => exact .inl ⟨_, rfl⟩
  | stepOnce => exact .inl (runEvent_stepOnce_next s)
  | writeRegister k v =>
    rcases runEvent_writeRegister_cases s k v with ⟨-, -, hacc⟩ | ⟨-, hrej⟩
    · exact .inl ⟨_, hacc⟩
    · exact .inl ⟨_, hrej⟩
  | writeMemory a v =>
    rcases runEvent_writeMemory_cases s a v with ⟨-, -, hacc⟩ | ⟨-, hrej⟩
    · exact .inl ⟨_, hacc⟩
    · exact .inl ⟨_, hrej⟩
  | reset image =>
    by_cases hlen : image.length ≤ 3584
    · exact .inl ⟨_, runEvent_reset_accepted s hlen⟩
    · have hlong : 3584 < image.length := Nat.not_le.mp hlen
      exact .inr ⟨runEvent_reset_oversized s hlong, image, rfl, hlong⟩

/-! ### Halted (R162) -/

/-- The pieces that events other than `reset` can still change in Halted (decision D31). -/
def ActsInHalted (p : Part) : Prop := p = .delay ∨ p = .sound ∨ p = .keys ∨ p = .schedule

theorem ne_paused_of_halted {s : State} {r : FaultRecord} (h : s.mode = .halted r) (label : PauseReason)
    (prior : PriorMode) : s.mode ≠ .paused label prior :=
  fun hmode => nomatch h.symm.trans hmode

theorem runEvent_halted {e : Event} {s : State} {r : FaultRecord} (hmode : s.mode = .halted r)
    (hreset : ∀ image, e ≠ .reset image) :
    ∃ t, runEvent e s = .next t ∧ UnchangedBut (fun p => p = .delay ∨ p = .sound ∨ p = .keys) s t := by
  have hpaused := ne_paused_of_halted hmode
  have hrejected := State.not_isPaused hpaused
  cases e with
  | step => exact ⟨s, stepEvent_halted s r hmode, UnchangedBut.refl _ s⟩
  | tick => exact ⟨_, rfl, (UnchangedBut.tick s).mono fun _ hp => hp.imp_right Or.inl⟩
  | setKey code pressed => exact ⟨_, rfl, (UnchangedBut.setKey s code pressed).mono fun _ hp => .inr (.inr hp)⟩
  | pause reason =>
    have hsame : s.pauseWith reason.reason = s := pauseWith_of_none _ (hmode ▸ rfl)
    exact ⟨s, congrArg _ hsame, UnchangedBut.refl _ s⟩
  | resume => exact ⟨s, congrArg _ (resume_not_paused hpaused), UnchangedBut.refl _ s⟩
  | stepOnce => exact ⟨s, runEvent_stepOnce_rejected hpaused, UnchangedBut.refl _ s⟩
  | writeRegister k v => exact ⟨s, settle_rejected (writeRegister_rejected v (.inl hrejected)), UnchangedBut.refl _ s⟩
  | writeMemory a v => exact ⟨s, settle_rejected (writeMemory_rejected v (.inl hrejected)), UnchangedBut.refl _ s⟩
  | reset image => exact absurd rfl (hreset image)

/-- A step of a halted machine keeps the mode, and takes no event but the first off the schedule. -/
theorem step_halted {s : State} {r : FaultRecord} (hmode : s.mode = .halted r)
    (hreset : ∀ image, .reset image ∉ s.schedule) :
    ∃ t, step s = .next t ∧ t.mode = .halted r ∧ (∀ image, .reset image ∉ t.schedule) ∧
      UnchangedBut ActsInHalted s t := by
  match hs : s.schedule with
  | [] =>
    exact ⟨s, (step_of_empty s hs).trans (stepEvent_halted s r hmode), hmode, hreset, UnchangedBut.refl _ s⟩
  | e :: rest =>
    rw [hs] at hreset
    obtain ⟨t, ht, hframe⟩ := runEvent_halted (e := e) (s := { s with schedule := rest }) hmode
      fun image he => hreset image (he ▸ List.mem_cons_self)
    have hkept : t.mode = s.mode := hframe .mode (by simp)
    have hrest : t.schedule = rest := hframe .schedule (by simp)
    refine ⟨t, (step_of_scheduled s e rest hs).trans ht, hkept.trans hmode, fun image hmem => ?_, ?_⟩
    · exact hreset image (List.mem_cons_of_mem e (hrest ▸ hmem))
    · exact ((UnchangedBut.setSchedule s rest).mono fun _ hp => .inr (.inr (.inr hp))).trans
        (hframe.mono fun _ hp => hp.imp_right fun hp => hp.imp_right Or.inl)

/-! ### The obligations -/

/-- Settles O41, by induction on the number of steps. -/
theorem haltedIsTerminal : Obligations.HaltedIsTerminal := by
  intro n
  induction n with
  | zero => exact fun s r hmode _ => ⟨s, rfl, hmode, UnchangedBut.refl _ s⟩
  | succ n ih =>
    intro s r hmode hreset
    obtain ⟨t, hstep, ht, hresets, hframe⟩ := step_halted hmode hreset
    obtain ⟨u, hrun, hu, hrest⟩ := ih t r ht hresets
    exact ⟨u, (runSteps_succ n s t hstep).trans hrun, hu, hframe.trans hrest⟩

/-- Settles O42, by whether the schedule holds an event. -/
theorem onlyALoadFaultStops : Obligations.OnlyALoadFaultStops := by
  intro s
  match hs : s.schedule with
  | [] => exact .inl (step_of_empty s hs ▸ stepEvent_next s)
  | e :: rest =>
    rw [step_of_scheduled s e rest hs]
    rcases runEvent_next e { s with schedule := rest } with hnext | ⟨hfault, image, rfl, hlong⟩
    · exact .inl hnext
    · exact .inr ⟨hfault, image, rest, rfl, hlong⟩

/-- Settles O46: the frame of each event, and for the debugger's writes by whether they are accepted. -/
theorem eventsWriteOnlyTheirState : Obligations.EventsWriteOnlyTheirState := by
  intro s t
  refine ⟨fun h => ?tick, fun k b h => ?setKey, fun reason h => ?pause, fun h => ?resume, fun k v h => ?writeRegister,
    fun a v h => ?writeMemory⟩
  case tick => exact Host.Outcome.next.inj h ▸ UnchangedBut.tick s
  case setKey => exact Host.Outcome.next.inj h ▸ UnchangedBut.setKey s k b
  case pause => exact Host.Outcome.next.inj h ▸ UnchangedBut.pauseWith s reason.reason
  case resume => exact Host.Outcome.next.inj h ▸ UnchangedBut.resume s
  case writeRegister =>
    rcases runEvent_writeRegister_cases s k v with ⟨hpaused, hk, hacc⟩ | ⟨-, hrej⟩
    · obtain rfl := Host.Outcome.next.inj (hacc.symm.trans h)
      exact (UnchangedBut.setReg s _ v).mono fun _ hp => ⟨hpaused, hk, hp⟩
    · obtain rfl := Host.Outcome.next.inj (hrej.symm.trans h)
      exact UnchangedBut.refl _ s
  case writeMemory =>
    rcases runEvent_writeMemory_cases s a v with ⟨hpaused, ha, hacc⟩ | ⟨-, hrej⟩
    · obtain rfl := Host.Outcome.next.inj (hacc.symm.trans h)
      exact (UnchangedBut.writeByte s a v).mono fun _ hp => ⟨hpaused, ha, hp⟩
    · obtain rfl := Host.Outcome.next.inj (hrej.symm.trans h)
      exact UnchangedBut.refl _ s

/-- Settles O47: `sound_active` is that the remaining ST is not 0. -/
theorem ticksCountBothTimersDown : Obligations.TicksCountBothTimersDown := by
  intro n s h
  obtain ⟨t, hrun, hDT, hST, hframe⟩ := runSteps_ticks n s h
  refine ⟨t, hrun, hDT, hST, ?_, hframe⟩
  rw [t.soundActive_iff, hST]
  omega

/-- Settles O48: what can be paused saves its mode, and nothing else is changed. -/
theorem resumeRestoresWhatPauseSaved : Obligations.ResumeRestoresWhatPauseSaved := by
  intro s reason
  refine ⟨fun hcan => ?pausable, fun hcannot => ?unpausable, fun hnot => ?unpaused⟩
  case pausable =>
    obtain ⟨p, hp⟩ : ∃ p, s.mode.prior = some p := by
      rcases hcan with hmode | ⟨x, hmode⟩
      · exact ⟨.running, hmode ▸ rfl⟩
      · exact ⟨.waitingForKey x, hmode ▸ rfl⟩
    have hpause : s.pause reason = { s with mode := .paused reason.reason p } := pauseWith_of_prior _ hp
    have hback : State.resume { s with mode := .paused reason.reason p } = s := by
      rw [resume_paused rfl, Mode.mode_of_prior hp]
    exact ⟨_, _, _, congrArg Host.Outcome.next hpause, rfl, reason.reason_ne_stepDone,
      congrArg Host.Outcome.next hback⟩
  case unpausable =>
    have hnone : s.mode.prior = none := by
      rcases hcannot with ⟨label, prior, hmode⟩ | ⟨r, hmode⟩
      · exact hmode ▸ rfl
      · exact hmode ▸ rfl
    have hsame : s.pause reason = s := pauseWith_of_none _ hnone
    exact congrArg _ hsame
  case unpaused => exact congrArg _ (resume_not_paused hnot)

/-- Settles O49: `step_once` is one step from the saved mode and then a pause, which leaves a halted machine alone. -/
theorem stepOnceRunsOneStep : Obligations.StepOnceRunsOneStep := by
  refine fun s => ⟨fun label hmode => ?running, fun label x hmode => ?waiting, fun hnot => ?rejected⟩
  case running =>
    obtain ⟨t, ht, hnone, hsome⟩ := stepOnce_of_paused hmode
    refine ⟨t, ht, fun ⟨r, hr⟩ => hnone ?_, fun hr => hsome .running ?_, fun x hx => hsome (.waitingForKey x) ?_⟩
    · rw [hr]; rfl
    · rw [hr]; rfl
    · rw [hx]; rfl
  case waiting =>
    obtain ⟨t, ht, -, hsome⟩ := stepOnce_of_paused hmode
    refine ⟨t, ht, fun hr => hsome .running ?_, fun hx => hsome (.waitingForKey x) ?_⟩
    · rw [hr]; rfl
    · rw [hx]; rfl
  case rejected => exact runEvent_stepOnce_rejected hnot

/-- Settles O50, by whether each write is accepted. -/
theorem debuggerWritesOnlyWhilePaused : Obligations.DebuggerWritesOnlyWhilePaused := by
  intro s k v
  refine ⟨fun hmode => ⟨fun j hj => ?register, fun hk => ?memory⟩, fun h => ?noRegister, fun h => ?noMemory⟩
  case register =>
    have hk : k < 16 := hj ▸ j.isLt
    have hreg : BitVec.ofNat 4 k = j := BitVec.eq_of_toNat_eq (by rw [BitVec.toNat_ofNat, hj]; omega)
    refine ⟨s.setReg j v, ?_, s.reg_setReg_same j v, UnchangedBut.setReg s j v⟩
    exact congrArg (DebugReply.settle s) (hreg ▸ writeRegister_accepted v (s.isPaused_iff.mpr hmode) hk)
  case memory =>
    exact ⟨_, congrArg (DebugReply.settle s) (writeMemory_accepted v (s.isPaused_iff.mpr hmode) hk),
      Memory.read_write_same s.mem k v hk, UnchangedBut.writeByte s k v⟩
  case noRegister =>
    have hrej := writeRegister_rejected (s := s) (k := k) v (h.imp_left State.not_isPaused)
    exact ⟨hrej, settle_rejected hrej⟩
  case noMemory =>
    have hrej := writeMemory_rejected (s := s) (a := k) v (h.imp_left State.not_isPaused)
    exact ⟨hrej, settle_rejected hrej⟩

end Sys2Proof.Machine
end

section
/-! Proofs of the precise faults (spec 60_exceptions.md section 1), of what `reset` leaves (70_reset_and_hazards.md
section 1), and of the invariant of every run (10_state.md). -/

namespace Sys2Proof.Machine

/-! ### Everything the step of a Running machine can answer -/

/-- The step of a Running machine is a fault of the table that changes the mode alone, or it has executed an
instruction at an even address up to 4094 (R70 to R72). -/
theorem runInstruction_outcome (s : State) :
    (∃ r, s.runInstruction = .next { s with mode := .halted r } ∧ r.asTabled ∧ r.addr = s.pc) ∨
    (∃ i t, s.runInstruction = .next t ∧ s.pc.toNat % 2 = 0 ∧ s.pc.toNat ≤ 4094 ∧ ExecOutcome i s t) := by
  rcases s.fetch_cases with ⟨hodd, -⟩ | ⟨heven, hhigh, -⟩ | ⟨heven, hlow, hfetch⟩
  · exact .inl ⟨_, runInstruction_misaligned hodd, ⟨rfl, rfl, hodd⟩, rfl⟩
  · exact .inl ⟨_, runInstruction_outOfBounds heven hhigh, ⟨rfl, rfl, heven, hhigh⟩, rfl⟩
  · simp only [State.runInstruction, hfetch, State.runWord]
    cases hdecode : decodeWord (wordOfBytes (s.mem.read s.pc.toNat) (s.mem.read (s.pc.toNat + 1))) with
    | illegal why => exact .inl ⟨_, rfl, ⟨rfl, _, rfl, wellFormedWord_of_illegal hdecode⟩, rfl⟩
    | instr i =>
      obtain ⟨t, ht, houtcome⟩ := exec_outcome i s
      exact .inr ⟨i, t, ht, heven, hlow, houtcome⟩

/-- Settles O40: of the outcomes of a Running machine's step, only the faults leave it Halted. -/
theorem faultsChangeOnlyTheMode : Obligations.FaultsChangeOnlyTheMode := by
  intro s t r hsched hmode hstep hhalted
  rw [step_running hsched hmode] at hstep
  have hfault : ∀ r', t = { s with mode := .halted r' } → r'.asTabled → r'.addr = s.pc →
      t = { s with mode := .halted r } ∧ r.addr = s.pc ∧ r.asTabled := by
    rintro r' rfl htabled haddr
    cases hhalted
    exact ⟨rfl, haddr, htabled⟩
  rcases runInstruction_outcome s with ⟨r', hrun, htabled, haddr⟩ | ⟨i, u, hrun, -, -, houtcome⟩
  · exact hfault r' (Host.Outcome.next.inj (hstep.symm.trans hrun)) htabled haddr
  · obtain rfl : u = t := Host.Outcome.next.inj (hrun.symm.trans hstep)
    cases houtcome with
    | faults r' state addr tabled => exact hfault r' state tabled addr
    | waits x state => rw [state] at hhalted; cases hhalted
    | runs mode => cases hhalted.symm.trans (mode.trans hmode)

/-! ### Memory after a reset (R24, R193) -/

theorem glyph_of_ge {d : Nat} (h : 16 ≤ d) : glyph d = [] := by
  obtain ⟨k, rfl⟩ := Nat.exists_eq_add_of_le' h
  rfl

theorem unlistedByte_font (k : Nat) (hk : k < 80) : unlistedByte (0x050 + k) = fontBytes.getD k 0 := by
  revert k
  decide

/-- Outside the font an unlisted byte is 0 (R24). -/
theorem unlistedByte_outside_font {a : Nat} (h : a < 0x050 ∨ 0x09F < a) : unlistedByte a = 0 := by
  unfold unlistedByte fontBase
  split
  · rw [glyph_of_ge (by omega)]
    rfl
  · rfl

/-- A byte outside the image is as the reset contents give it (R24, R190). -/
theorem State.loaded_read_outside (s : State) {image : List Byte} {a : Nat} (h : a < 0x200 ∨ 0x200 + image.length ≤ a) :
    (s.loaded image).mem.read a = unlistedByte a :=
  Memory.read_writeBytes_outside image State.reset.mem Config.progBase a h

theorem State.loaded_reg (s : State) (image : List Byte) (j : RegIndex) : (s.loaded image).reg j = 0 := by
  simp [State.loaded, State.reset, State.reg]

theorem State.loaded_pixel (s : State) (image : List Byte) (row : Fin 32) (col : Fin 64) :
    (s.loaded image).fb.pixel row col = false :=
  Framebuffer.pixel_blank row col

/-- Settles O52: memory is the reset contents with the image written over them, and every other piece is a field of
`State.reset`. -/
theorem resetLeavesTheResetState : Obligations.ResetLeavesTheResetState := by
  refine ⟨fun s image hlen => ?_, rfl⟩
  refine ⟨s.loaded image, runEvent_reset_accepted s hlen, s.loaded_reg image, rfl, rfl, rfl, rfl, rfl, rfl,
    s.loaded_pixel image, rfl, rfl, rfl, fun k hk => ?font, fun k hk => ?image, fun a _ ha => ?zero⟩
  case font => rw [s.loaded_read_outside (.inl (by omega)), unlistedByte_font k hk]
  case image => rw [List.getD_eq_getElem image 0 hk]; exact s.loaded_read_image hlen hk
  case zero => rw [s.loaded_read_outside (by omega), unlistedByte_outside_font (by omega)]

/-! ### The invariant: what it is about, and the changes that keep it -/

/-- The invariant speaks of memory, the stack, `pc`, the latch and the mode alone. -/
theorem State.Inv.of_same {s t : State} (h : s.Inv) (hmem : t.mem = s.mem) (hstack : t.stack = s.stack)
    (hpc : t.pc = s.pc) (hlatch : t.keyArmed = s.keyArmed) (hmode : t.mode = s.mode) : t.Inv where
  memory := hmem ▸ h.memory
  stackBound := by rw [State.sp, hstack]; exact h.stackBound
  returnAddresses := hstack ▸ h.returnAddresses
  pcBound := hpc ▸ h.pcBound
  latch := by rw [hmode, hlatch]; exact h.latch
  waitPc := by rw [hmode, hpc]; exact h.waitPc
  halted := by rw [hmode, hpc]; exact h.halted

/-- Memory may change to any canonical one. -/
theorem State.Inv.setMem {s : State} (h : s.Inv) {m : Memory} (hm : m.wf) : State.Inv { s with mem := m } :=
  { h with memory := hm }

/-- The mode may change to another that is in a wait if and only if the old one is, and is not Halted. -/
theorem State.Inv.setMode {s : State} (h : s.Inv) {m : Mode} (hwait : m.inWait = s.mode.inWait)
    (hnot : ∀ r, m ≠ .halted r) : State.Inv { s with mode := m } :=
  { h with
    latch := fun hm => h.latch (hwait ▸ hm)
    waitPc := fun hm => h.waitPc (hwait ▸ hm)
    halted := fun r hr => absurd hr (hnot r) }

/-- A fault of the table outside a wait keeps the invariant (R151). -/
theorem State.Inv.halt {s : State} (h : s.Inv) (hwait : s.mode.inWait = false) {r : FaultRecord} (htabled : r.asTabled)
    (haddr : r.addr = s.pc) : State.Inv { s with mode := .halted r } :=
  { h with
    latch := fun _ => h.latch hwait
    waitPc := fun hm => nomatch hm
    halted := fun r' hr' => by cases hr'; exact ⟨htabled, haddr⟩ }

/-! ### Instructions keep it -/

/-- Two after an even address up to 4094: even, and at most 4096 (R13). -/
theorem next_address_bounds {pc : Word} (heven : pc.toNat % 2 = 0) (hlow : pc.toNat ≤ 4094) :
    (pc + 2).toNat % 2 = 0 ∧ (pc + 2).toNat ≤ 4096 := by
  bv_omega

/-- A stack and `pc` that the invariant allows. -/
def ControlBounds (t : State) : Prop :=
  t.sp ≤ 16 ∧ (∀ ra ∈ t.stack, ra.toNat % 2 = 0 ∧ ra.toNat ≤ 4096) ∧ t.pc.toNat ≤ 0x10FE

/-- No instruction overfills the stack, leaves an odd return address or takes `pc` above 0x10FE (R13, R15, R34). -/
theorem ControlMove.bounds {s t : State} (h : ControlMove s t) (hs : s.Inv) (heven : s.pc.toNat % 2 = 0)
    (hlow : s.pc.toNat ≤ 4094) : ControlBounds t := by
  have hnext := next_address_bounds heven hlow
  have hkept : t.stack = s.stack → t.pc.toNat ≤ 0x10FE → ControlBounds t := fun hstack hpc =>
    ⟨by rw [State.sp, hstack]; exact hs.stackBound, hstack ▸ hs.returnAddresses, hpc⟩
  cases h with
  | next stack pc => exact hkept stack (by rw [pc]; omega)
  | skip stack pc => exact hkept stack (by rw [pc]; bv_omega)
  | jump nnn stack pc => exact hkept stack (by rw [pc, toNat_zextAddr]; omega)
  | offset nnn b stack pc => exact hkept stack (by rw [pc, toNat_jumpV0_target]; omega)
  | call nnn room stack pc =>
    refine ⟨?_, fun ra hra => ?_, by rw [pc, toNat_zextAddr]; omega⟩
    · rw [State.sp, stack, List.length_cons]; exact room
    · rw [stack] at hra
      rcases List.mem_cons.mp hra with rfl | hra
      · exact hnext
      · exact hs.returnAddresses ra hra
  | ret stack =>
    obtain ⟨-, hpc⟩ := hs.returnAddresses t.pc (stack ▸ List.mem_cons_self)
    refine ⟨?_, fun ra hra => hs.returnAddresses ra (stack ▸ List.mem_cons_of_mem _ hra), by omega⟩
    have hlen : s.sp = t.sp + 1 := State.sp_of_pushed stack
    have hbound := hs.stackBound
    omega

theorem MemoryMove.wf {i : Instr} {s t : State} (h : MemoryMove i s t) (hs : s.mem.wf) : t.mem.wf := by
  rcases h with hsame | ⟨-, bs, hstored⟩
  · exact hsame ▸ hs
  · exact hstored ▸ Memory.wf_writeBytes bs _ _ hs

theorem ExecOutcome.inv {i : Instr} {s t : State} (h : ExecOutcome i s t) (hs : s.Inv) (hmode : s.mode = .running)
    (heven : s.pc.toNat % 2 = 0) (hlow : s.pc.toNat ≤ 4094) : t.Inv := by
  have hwait : s.mode.inWait = false := hmode ▸ rfl
  cases h with
  | faults r state addr tabled => exact state ▸ hs.halt hwait tabled addr
  | waits x state =>
    subst state
    exact { hs with
      latch := fun hm => nomatch hm
      waitPc := fun _ => ⟨heven, hlow⟩
      halted := fun r hr => nomatch hr }
  | runs mode latch mem control =>
    have hrunning : t.mode = .running := mode.trans hmode
    obtain ⟨hsp, hra, hpc⟩ := control.bounds hs heven hlow
    exact {
      memory := mem.wf hs.memory
      stackBound := hsp
      returnAddresses := hra
      pcBound := hpc
      latch := fun _ => latch.trans (hs.latch hwait)
      waitPc := fun hm => nomatch hrunning ▸ hm
      halted := fun r hr => nomatch hrunning.symm.trans hr }

/-! ### Events keep it -/

theorem keyWaitCheck_inv {s : State} {x : RegIndex} (hs : s.Inv) (hmode : s.mode = .waitingForKey x) :
    (s.keyWaitCheck x).Inv := by
  have hwait : s.mode.inWait = true := hmode ▸ rfl
  obtain ⟨heven, hlow⟩ := hs.waitPc hwait
  obtain ⟨-, hnext⟩ := next_address_bounds heven hlow
  by_cases hit : s.keys &&& s.keyArmed = 0
  · rw [s.keyWaitCheck_miss x hit]
    exact { hs with latch := fun hm => absurd (hm.symm.trans hwait) Bool.false_ne_true }
  · rw [s.keyWaitCheck_hit x hit]
    exact { hs with
      pcBound := by exact hnext.trans (by decide)
      latch := fun _ => rfl
      waitPc := fun hm => nomatch hm
      halted := fun r hr => nomatch hr }

theorem stepEvent_inv {s t : State} (hs : s.Inv) (h : s.stepEvent = .next t) : t.Inv := by
  obtain ⟨m, hmode⟩ : ∃ m, s.mode = m := ⟨_, rfl⟩
  cases m with
  | running =>
    rw [stepEvent_running s hmode] at h
    rcases runInstruction_outcome s with ⟨r, hrun, htabled, haddr⟩ | ⟨i, u, hrun, heven, hlow, houtcome⟩
    · obtain rfl := Host.Outcome.next.inj (hrun.symm.trans h)
      exact hs.halt (hmode ▸ rfl) htabled haddr
    · obtain rfl := Host.Outcome.next.inj (hrun.symm.trans h)
      exact houtcome.inv hs hmode heven hlow
  | waitingForKey x =>
    obtain rfl := Host.Outcome.next.inj ((stepEvent_waiting s x hmode).symm.trans h)
    exact keyWaitCheck_inv hs hmode
  | paused reason prior =>
    obtain rfl := Host.Outcome.next.inj ((stepEvent_paused s reason prior hmode).symm.trans h)
    exact hs
  | halted r =>
    obtain rfl := Host.Outcome.next.inj ((stepEvent_halted s r hmode).symm.trans h)
    exact hs

/-- Pausing saves whether a wait is open (R19, R175). -/
theorem Mode.inWait_paused {m : Mode} {p : PriorMode} (reason : PauseReason) (h : m.prior = some p) :
    (Mode.paused reason p).inWait = m.inWait := by
  cases m with
  | running => cases h; rfl
  | waitingForKey x => cases h; rfl
  | paused reason prior => cases h
  | halted r => cases h

/-- Resuming restores it (R19, R176). -/
theorem PriorMode.inWait_mode (p : PriorMode) (reason : PauseReason) :
    p.mode.inWait = (Mode.paused reason p).inWait := by
  cases p with
  | running => rfl
  | waitingForKey x => rfl

theorem PriorMode.mode_ne_halted (p : PriorMode) (r : FaultRecord) : p.mode ≠ .halted r := by
  cases p with
  | running => exact fun h => nomatch h
  | waitingForKey x => exact fun h => nomatch h

theorem pauseWith_inv {s : State} (hs : s.Inv) (reason : PauseReason) : (s.pauseWith reason).Inv := by
  cases h : s.mode.prior with
  | none => rw [pauseWith_of_none reason h]; exact hs
  | some p =>
    rw [pauseWith_of_prior reason h]
    exact hs.setMode (Mode.inWait_paused reason h) fun r hr => nomatch hr

theorem restored_inv {s : State} {label : PauseReason} {prior : PriorMode} (hs : s.Inv)
    (hmode : s.mode = .paused label prior) : State.Inv { s with mode := prior.mode } :=
  hs.setMode (hmode ▸ prior.inWait_mode label) prior.mode_ne_halted

theorem resume_inv {s : State} (hs : s.Inv) : s.resume.Inv := by
  by_cases h : ∃ label prior, s.mode = .paused label prior
  · obtain ⟨label, prior, hmode⟩ := h
    rw [resume_paused hmode]
    exact restored_inv hs hmode
  · rw [resume_not_paused fun label prior hmode => h ⟨label, prior, hmode⟩]
    exact hs

theorem stepOnce_inv {s t : State} (hs : s.Inv) (h : runEvent .stepOnce s = .next t) : t.Inv := by
  by_cases hpaused : ∃ label prior, s.mode = .paused label prior
  · obtain ⟨label, prior, hmode⟩ := hpaused
    obtain ⟨u, hu⟩ := stepEvent_next { s with mode := prior.mode }
    rw [runEvent_stepOnce_paused hmode, hu] at h
    obtain rfl := Host.Outcome.next.inj h
    exact pauseWith_inv (stepEvent_inv (restored_inv hs hmode) hu) .stepDone
  · have hsame := runEvent_stepOnce_rejected fun label prior hmode => hpaused ⟨label, prior, hmode⟩
    obtain rfl := Host.Outcome.next.inj (hsame.symm.trans h)
    exact hs

theorem setKey_inv {s : State} (hs : s.Inv) (code : Nat) (pressed : Bool) : (s.setKey code pressed).Inv := by
  unfold State.setKey
  split
  · exact hs.of_same rfl rfl rfl rfl rfl
  · exact hs

/-- The reset state has the invariant: it is Running at 0x200 with an empty stack and nothing stored. -/
theorem reset_inv : State.reset.Inv where
  memory := Memory.wf_nil
  stackBound := Nat.zero_le 16
  returnAddresses := fun _ hra => nomatch hra
  pcBound := by decide
  latch := fun _ => rfl
  waitPc := fun hm => nomatch hm
  halted := fun _ hr => nomatch hr

theorem loaded_inv (s : State) (image : List Byte) : (s.loaded image).Inv :=
  (reset_inv.setMem (Memory.wf_writeBytes image _ Config.progBase Memory.wf_nil)).of_same rfl rfl rfl rfl rfl

theorem runEvent_inv {e : Event} {s t : State} (hs : s.Inv) (h : runEvent e s = .next t) : t.Inv := by
  cases e with
  | step => exact stepEvent_inv hs h
  | tick => exact Host.Outcome.next.inj h ▸ hs.of_same rfl rfl rfl rfl rfl
  | setKey code pressed => exact Host.Outcome.next.inj h ▸ setKey_inv hs code pressed
  | pause reason => exact Host.Outcome.next.inj h ▸ pauseWith_inv hs reason.reason
  | resume => exact Host.Outcome.next.inj h ▸ resume_inv hs
  | stepOnce => exact stepOnce_inv hs h
  | writeRegister k v =>
    rcases runEvent_writeRegister_cases s k v with ⟨-, -, hacc⟩ | ⟨-, hrej⟩
    · obtain rfl := Host.Outcome.next.inj (hacc.symm.trans h)
      exact hs.of_same rfl rfl rfl rfl rfl
    · obtain rfl := Host.Outcome.next.inj (hrej.symm.trans h)
      exact hs
  | writeMemory a v =>
    rcases runEvent_writeMemory_cases s a v with ⟨-, -, hacc⟩ | ⟨-, hrej⟩
    · obtain rfl := Host.Outcome.next.inj (hacc.symm.trans h)
      exact hs.setMem (Memory.wf_write _ a v hs.memory)
    · obtain rfl := Host.Outcome.next.inj (hrej.symm.trans h)
      exact hs
  | reset image =>
    by_cases hlen : image.length ≤ Config.maxImage
    · obtain rfl := Host.Outcome.next.inj ((runEvent_reset_accepted s hlen).symm.trans h)
      exact loaded_inv s image
    · cases (runEvent_reset_oversized s (Nat.not_le.mp hlen)).symm.trans h

/-! ### The obligations -/

/-- Settles O53, field by field. -/
theorem resetHasTheInvariant : Obligations.ResetHasTheInvariant := reset_inv

/-- Settles O54: taking an event off the schedule keeps the invariant, and so does each event. -/
theorem everyStepKeepsTheInvariant : Obligations.EveryStepKeepsTheInvariant := by
  intro s t hs h
  match hsched : s.schedule with
  | [] => exact stepEvent_inv hs ((step_of_empty s hsched).symm.trans h)
  | e :: rest =>
    have hrest : State.Inv { s with schedule := rest } := hs.of_same rfl rfl rfl rfl rfl
    exact runEvent_inv hrest ((step_of_scheduled s e rest hsched).symm.trans h)

end Sys2Proof.Machine
end
